-- ==== Sys2Proof/Word.lean ====
section
/-! DEFINITION. The word types of the machine: every stored value is one byte (spec R6, R11, R15, R18, R30). -/

namespace Sys2Proof

/-- A memory cell, a register, the program counter, the flag register, an operand: 8 bits, unsigned (R6).
UNVERIFIED: the width is the spec's own decision D1 (log entry 10). -/
abbrev Byte := BitVec 8

/-- A valid register index, 0 to 7 (R11, R14). -/
abbrev RegIndex := Fin 8

end Sys2Proof
end

