-- ==== Sys2Proof/Config.lean ====
section
/-! DEFINITION. The implementation parameters of the machine (spec R4). The spec leaves no value free, so there is
no free value here. -/

namespace Sys2Proof.Config

/-- `MEM_SIZE`: 256 cells, addresses 0..255 (R4, R30). -/
def memSize : Nat := 256

/-- `SP_INDEX`: register 7 is the stack pointer (R4, R12). -/
def spIndex : RegIndex := 7

/-- `SP_RESET`, the reset value of `x[7]`: 0xFF (R4, R26).
UNVERIFIED: the spec's own decision D3, unsafe where a machine starts SP elsewhere (log entry 3). -/
def spReset : Byte := 0xFF

/-- `FL_RESET`, the reset value of `fl`: 0x00 (R4, R26).
UNVERIFIED: the spec's own decision D4, unsafe where a machine starts FL elsewhere (log entry 3). -/
def flReset : Byte := 0x00

/-- The entry point: execution begins at address 0 (R4, R142). -/
def entryPoint : Byte := 0x00

/-- What a cell outside the image holds after reset, and so what an unlisted address of `State.mem` reads as:
memory is zero-filled (R23, R26). -/
def unlistedByte : Byte := 0x00

end Sys2Proof.Config
end

