-- ==== Sys2Proof/Machine/State.lean ====
section
/-! DEFINITION. The complete state of the machine: the six components of spec R10 and nothing else, as plain data,
with the fault records, the reasons a step does not happen, and the state after reset (R26). -/

namespace Sys2Proof.Machine

/-- The record a fault leaves in `status` (R111 to R114, D18), with the address pc0 of the faulting instruction. -/
inductive Cause where
  /-- `DecodeError(op, pc0)`: the opcode byte is not in the table (R111). -/
  | decodeError (op : Byte) (pc0 : Byte)
  /-- `AddressError(mem, v, pc0)`: an address value, a mathematical integer, outside 0..255 (R112). -/
  | addressErrorMem (v : Int) (pc0 : Byte)
  /-- `AddressError(reg, v, pc0)`: a register operand byte above 7 (R113). -/
  | addressErrorReg (v : Byte) (pc0 : Byte)
  /-- `InternalDispatchError`: named by the source's taxonomy, raised by no rule (R114, D22; log entry 8). -/
  | internalDispatchError
  deriving DecidableEq, Repr

/-- The run status (R21). -/
inductive Status where
  /-- The core takes steps. -/
  | running
  /-- HLT was executed: the success outcome. -/
  | halted
  /-- A fatal error was detected: the failure outcome, with its record. -/
  | faulted (cause : Cause)
  deriving DecidableEq, Repr

/-- Memory as a list of address and byte pairs in the canonical form `Memory.wf` (Ops.lean). A cell that is not
listed reads as `Config.unlistedByte` (R23, R26; log entry 7). -/
abbrev Memory := List Host.Cell

/-- The complete state (R10). -/
structure State where
  /-- `MEM`, 256 cells of 8 bits (R23, R30). -/
  mem : Memory
  /-- `x[0]` to `x[7]`, of which `x[7]` is the stack pointer (R11, R12). -/
  x : Vector Byte 8
  /-- The program counter (R15). -/
  pc : Byte
  /-- The flag register: bit 0 Equal, bit 1 Greater, bit 2 Less (R18). -/
  fl : Byte
  /-- The run status (R21). -/
  status : Status
  /-- The output trace, oldest value first (R22). -/
  out : List Byte
  deriving DecidableEq, Repr

/-- Why there is no step. A fault of the SPEC is not one of these: it is a next state whose status is `faulted`
(R118; log entry 1). -/
inductive Fault where
  /-- Raised by `step` in a state whose status is `halted`: no step is defined there (R21, D13). Safe (log entry 2). -/
  | halted
  /-- Raised by `step` in a state whose status is `faulted cause`: no step is defined there (R21, R119). Safe (log
  entry 2). -/
  | faulted (cause : Cause)
  deriving DecidableEq, Repr

/-- Why an instruction has no meaning. -/
inductive Refusal where
  /-- Raised by an arm of `exec` for an instruction that has no meaning yet; no arm of this model raises it. Safe. -/
  | notModelled (mnemonic : String)
  deriving DecidableEq, Repr

/-- The outcome of a step of this machine. -/
abbrev Result := Host.Outcome State Fault Refusal

/-- The state after a launch with the empty image, for given values of the parameters `SP_RESET` and `FL_RESET` (R26:
a model can quantify over them). -/
def State.resetWith (spReset flReset : Byte) : State where
  mem := []
  x := #v[0, 0, 0, 0, 0, 0, 0, spReset]
  pc := Config.entryPoint
  fl := flReset
  status := .running
  out := []

/-- The machine right after reset (R26, R140), nothing loaded (log entries 3 and 4). -/
def State.reset : State := State.resetWith Config.spReset Config.flReset

end Sys2Proof.Machine
end

