-- ==== Sys2Proof/Machine/Ops.lean ====
section
/-! DEFINITION. The named operations over registers and memory, fault entry and the sequential advance: the pseudocode
primitives of spec R7, each written once. -/

namespace Sys2Proof.Machine

/-! ## Memory: the cells (R23, R30) -/

/-- The content of cell `a` of a list of cells. -/
def Memory.lookup : Memory → Nat → Byte
  | [], _ => Config.unlistedByte
  | (k, w) :: m, a => if k = a then w else Memory.lookup m a

/-- The list without the entries of cell `a`. -/
def Memory.erase : Memory → Nat → Memory
  | [], _ => []
  | (k, w) :: m, a => if k = a then Memory.erase m a else (k, w) :: Memory.erase m a

/-- The list with the entry `(a, v)` put before the first higher address. -/
def Memory.place : Memory → Nat → Byte → Memory
  | [], a, v => [(a, v)]
  | (k, w) :: m, a, v => if a < k then (a, v) :: (k, w) :: m else (k, w) :: Memory.place m a v

/-- A read request at the memory port: the 8-bit content of the cell (R31, R45). -/
def Memory.read (m : Memory) (a : Byte) : Byte := Memory.lookup m a.toNat

/-- A write request at the memory port: cell `a` holds `v` from now on (R32, R45). Writing what an unlisted cell reads
as removes the entry, so equal memories are equal lists. -/
def Memory.write (m : Memory) (a v : Byte) : Memory :=
  if v = Config.unlistedByte then Memory.erase m a.toNat
  else Memory.place (Memory.erase m a.toNat) a.toNat v

/-- The canonical form from address `lo` up: addresses strictly rising and inside the address space, no entry equal to
what an unlisted address reads as. -/
def Memory.wfFrom : Nat → Memory → Bool
  | _, [] => true
  | lo, (k, w) :: m =>
    decide (lo ≤ k) && decide (k < Config.memSize) && decide (w ≠ Config.unlistedByte) && Memory.wfFrom (k + 1) m

/-- The canonical form of a memory. -/
def Memory.wf (m : Memory) : Bool := Memory.wfFrom 0 m

/-- The bytes `bs` at addresses `a`, `a + 1`, ..., as far as they are inside the address space: the loader's placing of
an image (R141) and of an instruction word. -/
def Memory.load (m : Memory) (a : Nat) : List Byte → Memory
  | [] => m
  | b :: bs =>
    if a < Config.memSize then Memory.load (Memory.write m (BitVec.ofNat 8 a) b) (a + 1) bs else m

/-! ## Registers (R11) -/

/-- `x[r]` (R7). -/
def State.reg (s : State) (r : RegIndex) : Byte := s.x[r]

/-- `x[r] <- v` (R7): no register is hardwired and none is read-only (R11). -/
def State.setReg (s : State) (r : RegIndex) (v : Byte) : State := { s with x := s.x.set r v }

/-- `x[7]`, the stack pointer (R12). -/
def State.sp (s : State) : Byte := s.reg Config.spIndex

/-- `x[7] <- t`. -/
def State.setSp (s : State) (t : Byte) : State := s.setReg Config.spIndex t

/-- `MEM` replaced by `m`, after a write request. -/
def State.setMem (s : State) (m : Memory) : State := { s with mem := m }

/-- `pc <- t` (R7). -/
def State.setPc (s : State) (t : Byte) : State := { s with pc := t }

/-- `fl <- v`: the whole byte (R19). -/
def State.setFl (s : State) (v : Byte) : State := { s with fl := v }

/-- `out <- out ++ [v]` (R7, R22). -/
def State.emit (s : State) (v : Byte) : State := { s with out := s.out ++ [v] }

/-- `status <- v` (R7, R21). -/
def State.setStatus (s : State) (v : Status) : State := { s with status := v }

/-! ## Faults (R118) -/

/-- Fault entry, the ONE way a fault is taken (R118): `status` becomes `Faulted` with the record and nothing else
changes: `pc` keeps pc0, nothing is pushed, saved or vectored. The state it is given is the one whose writes stay: the
state before the instruction, or for `AdvancePC` the state with the instruction's writes (R59). There is no return
from a fault (R119). The spec's decision D10 (log entries 1 and 14). -/
def raise (s : State) (c : Cause) : Result := .next (s.setStatus (.faulted c))

/-- Go on with the value of a checked computation, or raise its fault on `s`. -/
def orRaise {α : Type} (s : State) (r : Except Cause α) (k : α → Result) : Result :=
  match r with
  | .ok v => k v
  | .error c => raise s c

/-- A step is defined only when the status is `Running`; `Halted` and `Faulted` are terminal (R21). -/
def whenRunning (s : State) (r : Result) : Result :=
  match s.status with
  | .running => r
  | .halted => .fault .halted
  | .faulted c => .fault (.faulted c)

/-! ## Address checks (R31, R32, R45) -/

/-- The range check the core makes on the unbounded value of an address expression before it issues a request: an
8-bit address, or `AddressError(mem, v)`; never a wrapped address (R31, R45). -/
def checkAddress (pc0 : Byte) (v : Int) : Except Cause Byte :=
  if v < 0 ∨ 255 < v then .error (.addressErrorMem v pc0) else .ok (BitVec.ofNat 8 v.toNat)

/-- `MemRead(addr, 1)` (R31). -/
def memRead (s : State) (addr : Int) : Except Cause Byte :=
  match checkAddress s.pc addr with
  | .error c => .error c
  | .ok a => .ok (s.mem.read a)

/-- `MemWrite(addr, 1, v)` (R32). -/
def memWrite (s : State) (addr : Int) (v : Byte) : Except Cause State :=
  match checkAddress s.pc addr with
  | .error c => .error c
  | .ok a => .ok (s.setMem (s.mem.write a v))

/-! ## The sequential advance (R59) -/

/-- `AdvancePC(L)` (R59), on the state that already holds the instruction's other writes: past address 255 they stay
committed and the fault is `AddressError(mem, pc0 + L)`; it never wraps (R17; the spec's decision D8, log entry 14). -/
def advancePc (L : Nat) (s : State) : Result :=
  orRaise s (checkAddress s.pc ((s.pc.toNat : Int) + (L : Int))) fun t => .next (s.setPc t)

end Sys2Proof.Machine
end

