-- ==== Sys2Proof/Machine/Flags.lean ====
section
/-! DEFINITION. The flag register: its bits (spec R18) and the one computation that writes it (R73, R75). -/

namespace Sys2Proof.Machine

/-- Bit 0 of a flag byte, Equal (R18). -/
def flagE (f : Byte) : Bool := f.getLsbD 0

/-- Bit 1 of a flag byte, Greater (R18). No instruction reads it (R19). -/
def flagG (f : Byte) : Bool := f.getLsbD 1

/-- Bit 2 of a flag byte, Less (R18). No instruction reads it (R19). -/
def flagL (f : Byte) : Bool := f.getLsbD 2

/-- The flag byte CMP writes for the register values `u` (operand A) and `v` (operand B): E, G or L alone, the
comparison unsigned, bits 7:3 zero (R73, R75; the spec's decisions D5 and D23, log entry 11). -/
def compareFlags (u v : Byte) : Byte :=
  if u.toNat = v.toNat then 0x01
  else if v.toNat < u.toNat then 0x02
  else 0x04

end Sys2Proof.Machine
end

