-- ==== Sys2Proof/Machine/Operands.lean ====
section
/-! DEFINITION. The operand forms: the register operand (spec R14, R52), the stack addresses (R80) and CALL's return
address (R83). An immediate is its byte as stored and needs nothing (R52 (b)). -/

namespace Sys2Proof.Machine

/-- `RegIdx(b)` (R14): the whole byte must be 0..7, there is no masking (D6, log entry 14). `s` gives pc0. -/
def regIdx (s : State) (b : Byte) : Except Cause RegIndex :=
  if h : b.toNat < 8 then .ok ⟨b.toNat, h⟩ else .error (.addressErrorReg b s.pc)

/-- `SpDown()`: the effective address of a push, `x[7] - 1`, checked and not wrapped (R80, D7; log entry 14). -/
def spDown (s : State) : Except Cause Byte := checkAddress s.pc ((s.sp.toNat : Int) - 1)

/-- `SpUp(v)`: the stack-top address after a pop, `v + 1`, checked and not wrapped (R80, D7; log entry 14). -/
def spUp (s : State) (v : Byte) : Except Cause Byte := checkAddress s.pc ((v.toNat : Int) + 1)

/-- CALL's return address pc0 + 2, checked before any effect (R83, D9; log entry 13). -/
def returnAddress (s : State) : Except Cause Byte := checkAddress s.pc ((s.pc.toNat : Int) + 2)

end Sys2Proof.Machine
end

