-- ==== Sys2Proof/Machine/Alu.lean ====
section
/-! DEFINITION. The ALU instructions ADD, MUL, CMP (spec R70 to R75). -/

namespace Sys2Proof.Machine

/-- What the three ALU instructions share (R70): check operand A, then operand B, apply the operation to the two
checked registers, advance by 3. -/
def aluInstr (a b : Byte) (s : State) (apply : RegIndex → RegIndex → State) : Result :=
  orRaise s (regIdx s a) fun ra =>
  orRaise s (regIdx s b) fun rb =>
  advancePc 3 (apply ra rb)

/-- ADD a, b (R71): `x[ra] <- (x[ra] + x[rb]) mod 256`, `fl` unchanged. -/
def execAdd (a b : Byte) (s : State) : Result :=
  aluInstr a b s fun ra rb => s.setReg ra (BitVec.ofNat 8 ((s.reg ra).toNat + (s.reg rb).toNat))

/-- MUL a, b (R72): `x[ra] <- (x[ra] * x[rb]) mod 256`, `fl` unchanged. -/
def execMul (a b : Byte) (s : State) : Result :=
  aluInstr a b s fun ra rb => s.setReg ra (BitVec.ofNat 8 ((s.reg ra).toNat * (s.reg rb).toNat))

/-- CMP a, b (R73): `fl` from the VALUES of the two registers, no register written. -/
def execCmp (a b : Byte) (s : State) : Result :=
  aluInstr a b s fun ra rb => s.setFl (compareFlags (s.reg ra) (s.reg rb))

end Sys2Proof.Machine
end

