-- ==== Sys2Proof/Machine/Branch.lean ====
section
/-! DEFINITION. The branch instructions JMP, JEQ, JNE (spec R90 to R93). -/

namespace Sys2Proof.Machine

/-- What the three jumps share (R90): the register index is checked in every case, taken or not; the target is the
VALUE of the register; a jump not taken advances by 2. -/
def branchWhen (taken : Bool) (a : Byte) (s : State) : Result :=
  orRaise s (regIdx s a) fun ra =>
  if taken then .next (s.setPc (s.reg ra)) else advancePc 2 s

/-- JMP a (R91): always taken. -/
def execJmp (a : Byte) (s : State) : Result := branchWhen true a s

/-- JEQ a (R92): taken if `fl[0] = 1`. -/
def execJeq (a : Byte) (s : State) : Result := branchWhen (flagE s.fl) a s

/-- JNE a (R93): taken if `fl[0] = 0`. -/
def execJne (a : Byte) (s : State) : Result := branchWhen (!flagE s.fl) a s

end Sys2Proof.Machine
end

