-- ==== Sys2Proof/Machine/DataIo.lean ====
section
/-! DEFINITION. The data, output and halt instructions LDI, PRN, HLT (spec R100 to R102). -/

namespace Sys2Proof.Machine

/-- LDI a, imm (R100): `x[ra] <- imm`, the byte as stored. -/
def execLdi (a imm : Byte) (s : State) : Result :=
  orRaise s (regIdx s a) fun ra =>
  advancePc 3 (s.setReg ra imm)

/-- PRN a (R101): append the 8-bit register value to the output trace; the channel never blocks. -/
def execPrn (a : Byte) (s : State) : Result :=
  orRaise s (regIdx s a) fun ra =>
  advancePc 2 (s.emit (s.reg ra))

/-- HLT (R102): the status becomes `Halted` and nothing else changes, `pc` included (the spec's decision D12, log
entry 13). -/
def execHlt (s : State) : Result := .next (s.setStatus .halted)

end Sys2Proof.Machine
end

