-- ==== Sys2Proof/Machine/Stack.lean ====
section
/-! DEFINITION. The stack and subroutine instructions PUSH, POP, CALL, RET (spec R80 to R85). The stack is
full-descending. Every check raises on the state before the instruction, so a fault discards all writes (R118). -/

namespace Sys2Proof.Machine

/-- PUSH a (R81): the operand register is read AFTER `x[7]` is updated, so PUSH R7 pushes the decremented stack
pointer (the spec's decision D15, log entry 12). -/
def execPush (a : Byte) (s : State) : Result :=
  orRaise s (regIdx s a) fun ra =>
  orRaise s (spDown s) fun t =>
  let s1 := s.setSp t
  orRaise s (memWrite s1 t.toNat (s1.reg ra)) fun s2 =>
  advancePc 2 s2

/-- POP a (R82): the load into the register happens first, then the increment of `x[7]`, so POP R7 leaves the popped
byte + 1 (the spec's decision D15, log entry 12). -/
def execPop (a : Byte) (s : State) : Result :=
  orRaise s (regIdx s a) fun ra =>
  orRaise s (memRead s s.sp.toNat) fun v =>
  orRaise s (if ra = Config.spIndex then spUp s v else spUp s s.sp) fun t =>
  advancePc 2 ((s.setReg ra v).setSp t)

/-- CALL a (R83): the return address is checked first, then the stack; the target is read AFTER `x[7]` is updated, so
CALL R7 goes to the decremented stack pointer (the spec's decisions D9 and D15, log entries 12 and 13). -/
def execCall (a : Byte) (s : State) : Result :=
  orRaise s (regIdx s a) fun ra =>
  orRaise s (returnAddress s) fun r =>
  orRaise s (spDown s) fun t =>
  let s1 := s.setSp t
  orRaise s (memWrite s1 t.toNat r) fun s2 =>
  .next (s2.setPc (s2.reg ra))

/-- RET (R84): `pc` takes the popped byte, memory is unchanged. -/
def execRet (s : State) : Result :=
  orRaise s (memRead s s.sp.toNat) fun v =>
  orRaise s (spUp s s.sp) fun t =>
  .next ((s.setSp t).setPc v)

end Sys2Proof.Machine
end

