-- ==== Sys2Proof/Syntax.lean ====
section
/-! DEFINITION. The instructions: one constructor per row of spec/opcode_table.json (R53). -/

namespace Sys2Proof

/-- The 13 instructions with their operand bytes as fetched (R50, R51, R53). A register operand is the WHOLE operand
byte: a byte above 7 is still decoded and faults when the instruction executes (R14, R57; log entry 5). -/
inductive Instr where
  /-- LDI a, imm: load immediate into register (R100). -/
  | ldi (a imm : Byte)
  /-- PRN a: print register value (R101). -/
  | prn (a : Byte)
  /-- HLT: halt (R102). -/
  | hlt
  /-- MUL a, b: multiply register by register (R72). -/
  | mul (a b : Byte)
  /-- PUSH a: push register to stack (R81). -/
  | push (a : Byte)
  /-- POP a: pop stack into register (R82). -/
  | pop (a : Byte)
  /-- CALL a: call subroutine at register value (R83). -/
  | call (a : Byte)
  /-- RET: return from subroutine (R84). -/
  | ret
  /-- ADD a, b: add register to register (R71). -/
  | add (a b : Byte)
  /-- CMP a, b: compare, set flags (R73). -/
  | cmp (a b : Byte)
  /-- JMP a: unconditional jump (R91). -/
  | jmp (a : Byte)
  /-- JEQ a: jump if Equal flag set (R92). -/
  | jeq (a : Byte)
  /-- JNE a: jump if Equal flag clear (R93). -/
  | jne (a : Byte)
  deriving DecidableEq, Repr

end Sys2Proof
end

