-- ==== Sys2Proof/Decode.lean ====
section
/-! DEFINITION. The decoder and the encoder, from the opcode table R53 and the formats R50. The decoder is written
over any way to read the instruction's bytes, so that `decode` (over a list) and the machine's fetch (over memory)
are one decoder. -/

namespace Sys2Proof

/-- Why a list of bytes is no instruction. DESIGN CHOICE: the names are the model's (log entry 21). -/
inductive Reject where
  /-- The opcode byte is not one of the 13 of R53 (R56). -/
  | illegalOpcode (op : Byte)
  /-- The list ends before byte `k` of the instruction. -/
  | missingByte (k : Nat)
  deriving DecidableEq, Repr

/-- The three formats of R50, each with the instruction its operand bytes make. -/
inductive Format where
  /-- F0: one byte, no operand. -/
  | f0 (i : Instr)
  /-- F1: two bytes, operand A. -/
  | f1 (make : Byte → Instr)
  /-- F2: three bytes, operands A and B. -/
  | f2 (make : Byte → Byte → Instr)

/-- The opcode table R53: the row of an opcode byte, none for the 243 illegal ones (R56). -/
def opcodeRow (op : Byte) : Option Format :=
  if op = 0b10000010 then some (.f2 .ldi)
  else if op = 0b01000111 then some (.f1 .prn)
  else if op = 0b00000001 then some (.f0 .hlt)
  else if op = 0b10100010 then some (.f2 .mul)
  else if op = 0b01000101 then some (.f1 .push)
  else if op = 0b01000110 then some (.f1 .pop)
  else if op = 0b01010000 then some (.f1 .call)
  else if op = 0b00010001 then some (.f0 .ret)
  else if op = 0b10100000 then some (.f2 .add)
  else if op = 0b10100111 then some (.f2 .cmp)
  else if op = 0b01010100 then some (.f1 .jmp)
  else if op = 0b01010101 then some (.f1 .jeq)
  else if op = 0b01010110 then some (.f1 .jne)
  else none

/-- Fetch and decode, in the order of R58: byte 0 first; an opcode not in the table ends the decoding before any
operand is read; then operand A, then operand B. `read k` reads byte `k` of the instruction. -/
def decodeWith {ε : Type} (illegal : Byte → ε) (read : Nat → Except ε Byte) : Except ε Instr :=
  match read 0 with
  | .error e => .error e
  | .ok op =>
    match opcodeRow op with
    | none => .error (illegal op)
    | some (.f0 i) => .ok i
    | some (.f1 make) =>
      match read 1 with
      | .error e => .error e
      | .ok a => .ok (make a)
    | some (.f2 make) =>
      match read 1 with
      | .error e => .error e
      | .ok a =>
        match read 2 with
        | .error e => .error e
        | .ok b => .ok (make a b)

/-- Byte `k` of a list, for `decodeWith`. -/
def byteOf (bs : List Byte) (k : Nat) : Except Reject Byte :=
  match bs[k]? with
  | some b => .ok b
  | none => .error (.missingByte k)

/-- Decode the instruction at the head of a list of bytes; `Instr.length` says how many bytes it took (R55). -/
def decode (bs : List Byte) : Except Reject Instr := decodeWith .illegalOpcode (byteOf bs)

/-- The opcode byte of an instruction (R53). -/
def Instr.opcode : Instr → Byte
  | .ldi _ _ => 0b10000010
  | .prn _ => 0b01000111
  | .hlt => 0b00000001
  | .mul _ _ => 0b10100010
  | .push _ => 0b01000101
  | .pop _ => 0b01000110
  | .call _ => 0b01010000
  | .ret => 0b00010001
  | .add _ _ => 0b10100000
  | .cmp _ _ => 0b10100111
  | .jmp _ => 0b01010100
  | .jeq _ => 0b01010101
  | .jne _ => 0b01010110

/-- The operand bytes that follow the opcode, in address order (R36, R50). -/
def Instr.operandBytes : Instr → List Byte
  | .ldi a imm => [a, imm]
  | .prn a => [a]
  | .hlt => []
  | .mul a b => [a, b]
  | .push a => [a]
  | .pop a => [a]
  | .call a => [a]
  | .ret => []
  | .add a b => [a, b]
  | .cmp a b => [a, b]
  | .jmp a => [a]
  | .jeq a => [a]
  | .jne a => [a]

/-- The bytes of an instruction, in address order (R36, R50, R53). -/
def encode (i : Instr) : List Byte := i.opcode :: i.operandBytes

/-- The length L of an instruction in bytes, 1 + operand count (R50, R55). -/
def Instr.length : Instr → Nat
  | .ldi _ _ => 3
  | .prn _ => 2
  | .hlt => 1
  | .mul _ _ => 3
  | .push _ => 2
  | .pop _ => 2
  | .call _ => 2
  | .ret => 1
  | .add _ _ => 3
  | .cmp _ _ => 3
  | .jmp _ => 2
  | .jeq _ => 2
  | .jne _ => 2

/-- The three bytes a table word stands for: bit 0 of `w` is the least significant bit of the byte at the lowest
address, bits at and above `nbits` are 0 (R36: bytes at ascending addresses). -/
def tableWordBytes (nbits w : Nat) : List Byte :=
  let v := w % 2 ^ nbits
  [BitVec.ofNat 8 v, BitVec.ofNat 8 (v / 2 ^ 8), BitVec.ofNat 8 (v / 2 ^ 16)]

/-- What the decoder reads from an instruction word numbered as spec/opcode_table.json numbers it. -/
def decodeTableWord (nbits w : Nat) : Option Instr :=
  match decode (tableWordBytes nbits w) with
  | .ok i => some i
  | .error _ => none

/-- `R0` to `R7`; a byte above 7 has no spelling (R61). -/
def regName (b : Byte) : Option String :=
  match b.toNat with
  | 0 => some "R0"
  | 1 => some "R1"
  | 2 => some "R2"
  | 3 => some "R3"
  | 4 => some "R4"
  | 5 => some "R5"
  | 6 => some "R6"
  | 7 => some "R7"
  | _ => none

/-- `MN Ra` (R61). -/
def assembly1 (mn : String) (a : Byte) : Option String :=
  (regName a).map fun ra => mn ++ " " ++ ra

/-- `MN Ra,Rb` (R61). -/
def assembly2 (mn : String) (a b : Byte) : Option String :=
  match regName a, regName b with
  | some ra, some rb => some (mn ++ " " ++ ra ++ "," ++ rb)
  | _, _ => none

/-- The mnemonic syntax of R61: the mnemonic, then the operands in the order A, B separated by a comma, LDI's immediate
in decimal. `none` where a register byte has no spelling. DESIGN CHOICE: R7 is written R7, not SP (log entry 16). -/
def Instr.assembly : Instr → Option String
  | .ldi a imm => (regName a).map fun ra => "LDI " ++ ra ++ "," ++ Nat.repr imm.toNat
  | .prn a => assembly1 "PRN" a
  | .hlt => some "HLT"
  | .mul a b => assembly2 "MUL" a b
  | .push a => assembly1 "PUSH" a
  | .pop a => assembly1 "POP" a
  | .call a => assembly1 "CALL" a
  | .ret => some "RET"
  | .add a b => assembly2 "ADD" a b
  | .cmp a b => assembly2 "CMP" a b
  | .jmp a => assembly1 "JMP" a
  | .jeq a => assembly1 "JEQ" a
  | .jne a => assembly1 "JNE" a

end Sys2Proof
end

