-- ==== Sys2Proof/Machine/Fetch.lean ====
section
/-! DEFINITION. Fetching and decoding the instruction at the program counter (spec R58). -/

namespace Sys2Proof.Machine

/-- The fetch and decode part of `Step` (R58): the bytes are `MemRead(pc0)`, `MemRead(pc0 + 1)`, `MemRead(pc0 + 2)`,
read in that order and only as far as the opcode asks; an opcode not in the table is `DecodeError` (R56, R111). -/
def fetch (s : State) : Except Cause Instr :=
  decodeWith (fun op => .decodeError op s.pc) fun k => memRead s ((s.pc.toNat : Int) + (k : Int))

/-- The `n` bytes of memory at `pc`, `pc + 1`, ..., as far as they lie inside the address space. -/
def bytesFrom (m : Memory) (a : Nat) : Nat → List Byte
  | 0 => []
  | n + 1 => if a < Config.memSize then m.read (BitVec.ofNat 8 a) :: bytesFrom m (a + 1) n else []

/-- The bytes an instruction at the program counter can be made of: at most three (R50), none past address 255. -/
def codeBytes (s : State) : List Byte := bytesFrom s.mem s.pc.toNat 3

end Sys2Proof.Machine
end

