-- ==== Sys2Proof/Machine/Step.lean ====
section
/-! DEFINITION. One step: one whole instruction, fetched, decoded and executed atomically (spec R5, R58). -/

namespace Sys2Proof.Machine

/-- `Step` (R58). A step is defined only while the status is `Running` (R21); a fault of the fetch is taken like any
other (R118). -/
def step (s : State) : Host.Outcome State Fault Refusal :=
  whenRunning s (orRaise s (fetch s) fun i => exec i s)

/-- The state in which the given instruction word stands at the program counter and the machine is running, so that
the next step fetches it. The word's bytes that would lie past address 255 are absent, as in the hardware. It stands
for the loader's placing of a program (R141; log entry 4). -/
def State.withFetchWord (s : State) (nbits w : Nat) : State :=
  { s with mem := s.mem.load s.pc.toNat (tableWordBytes nbits w), status := .running }

end Sys2Proof.Machine
end

