-- ==== Sys2Proof/Machine/Launch.lean ====
section
/-! DEFINITION. Launch: how the loader's image comes into the machine before the first step (spec R140 to R144). -/

namespace Sys2Proof.Machine

/-- `LoadError` (R115): the image does not fit memory and the core is not launched (R141, D16; log entry 9). -/
inductive LoadError where
  /-- The image has more than 256 bytes. -/
  | imageTooLong (n : Nat)
  deriving DecidableEq, Repr

/-- The launch sequence R140 with the parameters `SP_RESET` and `FL_RESET` as arguments: the image at address 0, every
other cell zero, the rest of the state at the reset values of R26. -/
def State.launchWith (spReset flReset : Byte) (image : List Byte) : Except LoadError State :=
  if Config.memSize < image.length then .error (.imageTooLong image.length)
  else .ok { State.resetWith spReset flReset with mem := Memory.load [] 0 image }

/-- The launch of R140. A reset of a machine that has run is a new launch and nothing survives (R144), so it takes no
old state. -/
def State.launch (image : List Byte) : Except LoadError State :=
  State.launchWith Config.spReset Config.flReset image

end Sys2Proof.Machine
end

