-- ==== Sys2Proof/Machine/Run.lean ====
section
/-! DEFINITION. The run of the machine and its end (spec R58, R145). -/

namespace Sys2Proof.Machine

/-- At most `n` steps: the run is the iteration of `Step` while the status is `Running` (R58); where no step is
defined the state stays as it is (R21). -/
def runFor : Nat → State → State
  | 0, s => s
  | n + 1, s =>
    match step s with
    | .next t => runFor n t
    | .fault _ => s
    | .refused _ => s

/-- The outcome the host reports at the end of a run (R116, R145). The numeric value of the failure outcome is not
fixed (U12; log entry 15). -/
inductive RunOutcome where
  /-- The run ended in `Halted`. -/
  | success
  /-- The run ended in `Faulted`; the record carries what the diagnostic must identify (R124). -/
  | failure (cause : Cause)
  deriving DecidableEq, Repr

/-- The outcome of a status; none while the run goes on (R145). -/
def Status.outcome : Status → Option RunOutcome
  | .running => none
  | .halted => some .success
  | .faulted c => some (.failure c)

end Sys2Proof.Machine
end

