-- ==== Sys2Proof/WellFormed.lean ====
section
/-! DEFINITION. Which instructions are well formed: every register operand names one of the eight registers
(spec R14, R57). An ill-formed one is decoded all the same and faults when it executes. -/

namespace Sys2Proof

/-- A register operand byte is valid only if 0..7, tested on the whole byte (R14). -/
def validRegByte (b : Byte) : Bool := b.toNat ≤ 7

/-- The register operand bytes of an instruction, operand A first; LDI's immediate is none (R52, R60). -/
def Instr.regOperands : Instr → List Byte
  | .ldi a _ => [a]
  | .prn a => [a]
  | .hlt => []
  | .mul a b => [a, b]
  | .push a => [a]
  | .pop a => [a]
  | .call a => [a]
  | .ret => []
  | .add a b => [a, b]
  | .cmp a b => [a, b]
  | .jmp a => [a]
  | .jeq a => [a]
  | .jne a => [a]

/-- Every register operand is valid (R57). -/
def Instr.wellFormed (i : Instr) : Bool := i.regOperands.all validRegByte

end Sys2Proof
end

