-- ==== Sys2Proof/Safety.lean ====
section
/-! DEFINITION. What a legal state is, in the terms the claims use. -/

namespace Sys2Proof.Machine

/-- The legal values of `fl` (spec R20). -/
def legalFlags (f : Byte) : Bool := f = 0x00 || f = 0x01 || f = 0x02 || f = 0x04

/-- A fault record that tells the truth about an instruction at `pc`: it names `pc` as pc0, and its offending value is
one that the rules can meet: an opcode not in the table (R111), the address -1 or 256 (R112), a register byte above 7
(R113). `InternalDispatchError` is unreachable (R114). -/
def Cause.legalAt (pc : Byte) : Cause → Bool
  | .decodeError op pc0 => (opcodeRow op).isNone && pc0 = pc
  | .addressErrorMem v pc0 => (v = -1 || v = 256) && pc0 = pc
  | .addressErrorReg v pc0 => decide (7 < v.toNat) && pc0 = pc
  | .internalDispatchError => false

/-- A status that can stand beside `pc`. -/
def Status.legalAt (pc : Byte) : Status → Bool
  | .running => true
  | .halted => true
  | .faulted c => c.legalAt pc

/-- The invariant of the machine: memory in canonical form, legal flags (R20), a truthful fault record (R111 to R114,
R118 (b)). -/
structure State.Inv (s : State) : Prop where
  /-- The memory keeps its canonical form. -/
  mem_wf : s.mem.wf = true
  /-- The flag register holds a legal value. -/
  fl_legal : legalFlags s.fl = true
  /-- The status tells the truth. -/
  status_legal : s.status.legalAt s.pc = true

/-- Table R13: the registers an instruction may write, the stack pointer of PUSH, POP, CALL and RET included. -/
def mayWriteReg (i : Instr) (r : RegIndex) : Bool :=
  match i with
  | .ldi a _ => a.toNat = r.val
  | .prn _ => false
  | .hlt => false
  | .mul a _ => a.toNat = r.val
  | .push _ => r = 7
  | .pop a => a.toNat = r.val || r = 7
  | .call _ => r = 7
  | .ret => r = 7
  | .add a _ => a.toNat = r.val
  | .cmp _ _ => false
  | .jmp _ => false
  | .jeq _ => false
  | .jne _ => false

/-- The straight-line instructions: those that never set `pc` to a target and do not halt (R8, R16, R59). -/
def straightLine : Instr → Bool
  | .ldi _ _ => true
  | .prn _ => true
  | .hlt => false
  | .mul _ _ => true
  | .push _ => true
  | .pop _ => true
  | .call _ => false
  | .ret => false
  | .add _ _ => true
  | .cmp _ _ => true
  | .jmp _ => false
  | .jeq _ => false
  | .jne _ => false

/-- The first register operand byte above 7, in the order the checks are made: operand A, then operand B (R117 stages
4 and 5). -/
def firstBadRegister (i : Instr) : Option Byte := i.regOperands.find? fun b => 7 < b.toNat

end Sys2Proof.Machine
end

