-- ==== Sys2Proof/Certificates/Slice0/Obligations.lean ====
section
/-! DEFINITION. What the provers are asked to show, from the numbered rules of the spec. -/

open Sys2Proof Sys2Proof.Machine

/-! ## Encoding -/

/-- 30_encoding.md, table R53: each of the 13 opcode bytes, written out bit by bit, decodes with its operand bytes to
its instruction, whatever follows. -/
def Obligations.OpcodeTableDecodes : Prop :=
  ∀ (a b : Byte) (rest : List Byte),
    decode (0b10000010#8 :: a :: b :: rest) = .ok (.ldi a b) ∧
    decode (0b01000111#8 :: a :: rest) = .ok (.prn a) ∧
    decode (0b00000001#8 :: rest) = .ok .hlt ∧
    decode (0b10100010#8 :: a :: b :: rest) = .ok (.mul a b) ∧
    decode (0b01000101#8 :: a :: rest) = .ok (.push a) ∧
    decode (0b01000110#8 :: a :: rest) = .ok (.pop a) ∧
    decode (0b01010000#8 :: a :: rest) = .ok (.call a) ∧
    decode (0b00010001#8 :: rest) = .ok .ret ∧
    decode (0b10100000#8 :: a :: b :: rest) = .ok (.add a b) ∧
    decode (0b10100111#8 :: a :: b :: rest) = .ok (.cmp a b) ∧
    decode (0b01010100#8 :: a :: rest) = .ok (.jmp a) ∧
    decode (0b01010101#8 :: a :: rest) = .ok (.jeq a) ∧
    decode (0b01010110#8 :: a :: rest) = .ok (.jne a)

/-- R56 and R111: a byte is one of the 13 opcodes or a decode error. An opcode byte outside the table is refused
whatever follows it, and a running machine that meets it at its program counter takes `DecodeError` with that byte and
that address, changing nothing but the status: no operand is fetched, so this holds at address 255 as well. The list
has 13 different bytes, so 243 are illegal. -/
def Obligations.IllegalOpcodeIsDecodeError : Prop :=
  let legal : List Byte := [0x82, 0x47, 0x01, 0xA2, 0x45, 0x46, 0x50, 0x11, 0xA0, 0xA7, 0x54, 0x55, 0x56]
  legal.Nodup ∧ legal.length = 256 - 243 ∧
  (∀ op ∈ legal, ∀ (a b : Byte) (rest : List Byte), ∃ i, decode (op :: a :: b :: rest) = .ok i ∧ i.opcode = op) ∧
  ∀ op : Byte, op ∉ legal →
    (∀ rest : List Byte, decode (op :: rest) = .error (.illegalOpcode op)) ∧
    ∀ s : State, s.status = .running → s.mem.read s.pc = op →
      step s = .next { s with status := .faulted (.decodeError op s.pc) }

/-- Decoding the bytes of any instruction gives it back, every operand byte at every value, whatever bytes follow (the
ill-formed instructions included, since their operand bytes are kept: R57). Rests on tables R50 and R53. -/
def Obligations.DecodeOfEncode : Prop :=
  ∀ (i : Instr) (rest : List Byte), decode (encode i ++ rest) = .ok i

/-- The other direction: what decodes to an instruction begins with exactly its bytes. -/
def Obligations.EncodeOfDecode : Prop :=
  ∀ (bs : List Byte) (i : Instr), decode bs = .ok i → bs.take i.length = encode i ∧ i.length ≤ bs.length

/-- R55: the length is 1 + operand count, one to three bytes; it is read from the opcode byte alone and depends on
nothing else, no flag and no register; an opcode outside the table has no length, so what follows it is not read. -/
def Obligations.LengthFromOpcodeAlone : Prop :=
  (∀ i : Instr, i.length = 1 + i.operandBytes.length ∧ (encode i).length = i.length ∧ 1 ≤ i.length ∧ i.length ≤ 3) ∧
  (∀ (op : Byte) (r q : List Byte) (i j : Instr),
    decode (op :: r) = .ok i → decode (op :: q) = .ok j → i.length = j.length) ∧
  (∀ (op : Byte) (r q : List Byte),
    decode (op :: r) = .error (.illegalOpcode op) → decode (op :: q) = .error (.illegalOpcode op)) ∧
  ∀ s t : State, s.mem = t.mem → s.pc = t.pc → fetch s = fetch t

/-- Every proper beginning of an instruction's bytes is refused, by name: the first byte that is not there. The name
`missingByte` is the model's own (log entry 21); that the first missing byte is the one named follows the order of the
fetches, 30_encoding.md section 5, the spec's decision D11. -/
def Obligations.TruncatedInstructionRejected : Prop :=
  ∀ (i : Instr) (k : Nat), k < i.length → decode ((encode i).take k) = .error (.missingByte k)

/-! ## Fetch and step -/

/-- 30_encoding.md section 5: a running step is `exec` of the instruction that the bytes at the program counter decode
to, with nothing added around it; and those bytes are memory at pc, pc + 1, pc + 2 as far as address 255. -/
def Obligations.StepRunsDecodedInstruction : Prop :=
  (∀ (s : State) (i : Instr), s.status = .running → decode (codeBytes s) = .ok i → step s = exec i s) ∧
  ∀ (s : State) (k : Nat), k < 3 →
    (s.pc.toNat + k ≤ 255 → (codeBytes s)[k]? = some (s.mem.read (BitVec.ofNat 8 (s.pc.toNat + k)))) ∧
    (255 < s.pc.toNat + k → (codeBytes s)[k]? = none)

/-- 30_encoding.md section 5 and the first two rows of the table of 60_exceptions.md section 2: an instruction whose
bytes do not all lie in memory faults with address 256 at its operand fetch, before any effect. The order of the
fetches is the spec's own decision D11. -/
def Obligations.OperandFetchPastEndFaults : Prop :=
  ∀ (s : State) (i : Instr), s.status = .running → s.mem.read s.pc = i.opcode → 256 < s.pc.toNat + i.length →
    step s = .next { s with status := .faulted (.addressErrorMem 256 s.pc) }

/-- A running machine always takes its step: no instruction and no data make the model stop or refuse. -/
def Obligations.RunningStepAnswersNext : Prop :=
  ∀ s : State, s.status = .running → ∃ t, step s = .next t

/-- 10_state.md section 5: a step is defined only while the status is `Running`. That the model answers a named fault
there is its own choice (log entry 2). -/
def Obligations.NoStepUnlessRunning : Prop :=
  ∀ s : State, (s.status = .halted → step s = .fault .halted) ∧
    ∀ c, s.status = .faulted c → step s = .fault (.faulted c)

/-- `Halted` and `Faulted` are terminal and sticky, the spec's decision D13: once a run has an outcome, running on
changes nothing. -/
def Obligations.EndedRunKeepsItsState : Prop :=
  ∀ (s : State) (n m : Nat), (runFor n s).status.outcome ≠ none → runFor (n + m) s = runFor n s

/-! ## Memory -/

/-- R31: `MemRead` raises `AddressError(mem, addr)` outside 0..255 and otherwise returns the cell; it returns no state,
so it changes nothing. -/
def Obligations.MemReadReturnsTheCell : Prop :=
  ∀ (s : State) (addr : Int),
    (addr < 0 ∨ 255 < addr → memRead s addr = .error (.addressErrorMem addr s.pc)) ∧
    ∀ a : Byte, addr = (a.toNat : Int) → memRead s addr = .ok (s.mem.read a)

/-- R32: `MemWrite` raises `AddressError(mem, addr)` outside 0..255 and writes nothing; otherwise the cell holds the
value, and every other cell and every other component is unchanged. -/
def Obligations.MemWriteChangesOneCell : Prop :=
  ∀ (s : State) (addr : Int) (v : Byte),
    (addr < 0 ∨ 255 < addr → memWrite s addr v = .error (.addressErrorMem addr s.pc)) ∧
    ∀ a : Byte, addr = (a.toNat : Int) → ∃ t, memWrite s addr v = .ok t ∧
      t.mem.read a = v ∧ (∀ b : Byte, b ≠ a → t.mem.read b = s.mem.read b) ∧
      t.x = s.x ∧ t.pc = s.pc ∧ t.fl = s.fl ∧ t.status = s.status ∧ t.out = s.out

/-- Two memories in canonical form that read alike at every address are the same list, so comparing states compares
memories (the model's own form of memory, log entry 7). -/
def Obligations.CanonicalMemoriesReadAlikeAreEqual : Prop :=
  ∀ m n : Memory, m.wf = true → n.wf = true → (∀ a : Byte, m.read a = n.read a) → m = n

/-! ## Registers -/

/-- 10_state.md section 2: the eight registers are plain storage, none hardwired and none read-only: each reads back
what was written and no other changes. -/
def Obligations.RegisterReadsBackWrite : Prop :=
  ∀ (s : State) (r q : RegIndex) (v : Byte),
    (s.setReg r v).reg r = v ∧ (q ≠ r → (s.setReg r v).reg q = s.reg q)

/-- R113: a register operand byte above 7 raises `AddressError(reg, byte)` with pc0, operand A checked before operand
B, and no state other than the status changes; and no instruction raises it otherwise, so HLT and RET, which have no
register operand, never do. -/
def Obligations.RegisterByteAboveSevenFaults : Prop :=
  (∀ (i : Instr) (s : State) (v : Byte), firstBadRegister i = some v →
    7 < v.toNat ∧ exec i s = .next { s with status := .faulted (.addressErrorReg v s.pc) }) ∧
  (∀ (i : Instr) (s t : State) (v p : Byte), s.status = .running → exec i s = .next t →
    t.status = .faulted (.addressErrorReg v p) → firstBadRegister i = some v ∧ p = s.pc) ∧
  firstBadRegister .hlt = none ∧ firstBadRegister .ret = none

/-! ## ALU -/

/-- 40_alu.md, ADD: `x[a]` becomes the sum modulo 256 and nothing else changes but `pc`, which advances by 3. Where
the advance would pass address 255 the sum stays committed and the machine faults (the spec's decision D8). -/
def Obligations.AddWritesWrappedSum : Prop :=
  ∀ (a b : Byte) (ra rb : RegIndex) (s : State), a.toNat = ra.val → b.toNat = rb.val →
    let u := s.setReg ra (BitVec.ofNat 8 (((s.reg ra).toNat + (s.reg rb).toNat) % 256))
    (s.pc.toNat + 3 ≤ 255 →
      exec (.add a b) s = .next { u with pc := BitVec.ofNat 8 (s.pc.toNat + 3) }) ∧
    (255 < s.pc.toNat + 3 →
      exec (.add a b) s = .next { u with status := .faulted (.addressErrorMem (s.pc.toNat + 3) s.pc) })

/-- 40_alu.md, MUL: `x[a]` becomes the product modulo 256 and nothing else changes but `pc`, which advances by 3.
Where the advance would pass address 255 the product stays committed and the machine faults (D8). -/
def Obligations.MulWritesWrappedProduct : Prop :=
  ∀ (a b : Byte) (ra rb : RegIndex) (s : State), a.toNat = ra.val → b.toNat = rb.val →
    let u := s.setReg ra (BitVec.ofNat 8 (((s.reg ra).toNat * (s.reg rb).toNat) % 256))
    (s.pc.toNat + 3 ≤ 255 →
      exec (.mul a b) s = .next { u with pc := BitVec.ofNat 8 (s.pc.toNat + 3) }) ∧
    (255 < s.pc.toNat + 3 →
      exec (.mul a b) s = .next { u with status := .faulted (.addressErrorMem (s.pc.toNat + 3) s.pc) })

/-- 40_alu.md, CMP: `fl` becomes 0x01, 0x02 or 0x04 as the VALUE of operand A's register equals, exceeds or is below
that of operand B's; no register is written. That the order is unsigned and which way Greater points is the spec's
decision D5, that bits 7:3 are zero D23, the fault at the end of memory D8. -/
def Obligations.CmpWritesOneFlag : Prop :=
  ∀ (a b : Byte) (ra rb : RegIndex) (s : State) (f : Byte), a.toNat = ra.val → b.toNat = rb.val →
    ((s.reg ra).toNat = (s.reg rb).toNat ∧ f = 0x01 ∨ (s.reg rb).toNat < (s.reg ra).toNat ∧ f = 0x02 ∨
      (s.reg ra).toNat < (s.reg rb).toNat ∧ f = 0x04) →
    (s.pc.toNat + 3 ≤ 255 →
      exec (.cmp a b) s = .next { s with fl := f, pc := BitVec.ofNat 8 (s.pc.toNat + 3) }) ∧
    (255 < s.pc.toNat + 3 →
      exec (.cmp a b) s =
        .next { s with fl := f, status := .faulted (.addressErrorMem (s.pc.toNat + 3) s.pc) })

/-! ## Stack and subroutine -/

/-- 41_stack_subroutine.md, PUSH: with the stack pointer above 0, the stack pointer goes down by one to `t` and cell
`t` takes the register's value; PUSH R7 pushes `t` itself (the spec's decision D15). With the stack pointer 0 it
faults with address -1 and writes nothing (D7); where the advance would pass address 255 the writes stay (D8). -/
def Obligations.PushStoresBelowStackPointer : Prop :=
  ∀ (a : Byte) (ra : RegIndex) (s : State), a.toNat = ra.val →
    (s.sp.toNat = 0 → exec (.push a) s = .next { s with status := .faulted (.addressErrorMem (-1) s.pc) }) ∧
    ∀ t : Byte, s.sp.toNat = t.toNat + 1 →
      let v := if ra = 7 then t else s.reg ra
      let u : State := { s.setReg 7 t with mem := s.mem.write t v }
      (s.pc.toNat + 2 ≤ 255 →
        exec (.push a) s = .next { u with pc := BitVec.ofNat 8 (s.pc.toNat + 2) }) ∧
      (255 < s.pc.toNat + 2 →
        exec (.push a) s = .next { u with status := .faulted (.addressErrorMem (s.pc.toNat + 2) s.pc) })

/-- 41_stack_subroutine.md, POP: the register takes the cell at the stack pointer, then the stack pointer goes up by
one; for POP R7 the popped byte itself goes up by one (the spec's decision D15). Where the value to increment is 255
it faults with address 256 and writes nothing (D7); where the advance would pass address 255 the writes stay (D8). -/
def Obligations.PopLoadsThenRaisesStackPointer : Prop :=
  ∀ (a : Byte) (ra : RegIndex) (s : State), a.toNat = ra.val →
    let v := s.mem.read s.sp
    let old := if ra = 7 then v else s.sp
    (old.toNat = 255 → exec (.pop a) s = .next { s with status := .faulted (.addressErrorMem 256 s.pc) }) ∧
    ∀ t : Byte, t.toNat = old.toNat + 1 →
      let u := (s.setReg ra v).setReg 7 t
      (s.pc.toNat + 2 ≤ 255 →
        exec (.pop a) s = .next { u with pc := BitVec.ofNat 8 (s.pc.toNat + 2) }) ∧
      (255 < s.pc.toNat + 2 →
        exec (.pop a) s = .next { u with status := .faulted (.addressErrorMem (s.pc.toNat + 2) s.pc) })

/-- 41_stack_subroutine.md, CALL: the stack pointer goes down by one to `t`, cell `t` takes the return address pc + 2,
and `pc` takes the register's value, for CALL R7 `t` itself (the spec's decision D15). A return address above 255
faults first (D9), then a stack pointer of 0 (D7), both with nothing written. -/
def Obligations.CallPushesReturnAddressAndJumps : Prop :=
  ∀ (a : Byte) (ra : RegIndex) (s : State), a.toNat = ra.val →
    (255 < s.pc.toNat + 2 →
      exec (.call a) s = .next { s with status := .faulted (.addressErrorMem (s.pc.toNat + 2) s.pc) }) ∧
    (s.pc.toNat + 2 ≤ 255 → s.sp.toNat = 0 →
      exec (.call a) s = .next { s with status := .faulted (.addressErrorMem (-1) s.pc) }) ∧
    ∀ t : Byte, s.pc.toNat + 2 ≤ 255 → s.sp.toNat = t.toNat + 1 →
      exec (.call a) s = .next { s.setReg 7 t with
        mem := s.mem.write t (BitVec.ofNat 8 (s.pc.toNat + 2)), pc := if ra = 7 then t else s.reg ra }

/-- 41_stack_subroutine.md, RET: `pc` takes the cell at the stack pointer and the stack pointer goes up by one; at 255
it faults with address 256 and nothing is written (the spec's decision D7). -/
def Obligations.RetPopsProgramCounter : Prop :=
  ∀ s : State,
    (s.sp.toNat = 255 → exec .ret s = .next { s with status := .faulted (.addressErrorMem 256 s.pc) }) ∧
    ∀ t : Byte, t.toNat = s.sp.toNat + 1 →
      exec .ret s = .next { s.setReg 7 t with pc := s.mem.read s.sp }

/-! ## Branches -/

/-- R91: JMP's two bytes; `pc` becomes the register's value and nothing else changes, wherever the instruction stands;
a register byte above 7 faults with nothing written; a jump to itself changes nothing at all. -/
def Obligations.JmpGoesToRegister : Prop :=
  ∀ (a : Byte) (s : State),
    encode (.jmp a) = [0b01010100#8, a] ∧
    (7 < a.toNat → exec (.jmp a) s = .next { s with status := .faulted (.addressErrorReg a s.pc) }) ∧
    ∀ ra : RegIndex, a.toNat = ra.val →
      exec (.jmp a) s = .next { s with pc := s.reg ra } ∧ (s.reg ra = s.pc → exec (.jmp a) s = .next s)

/-- 42_branch.md, JEQ: with bit 0 of `fl` set, `pc` becomes the register's value; with it clear, `pc` advances by 2;
nothing else changes. Not taken at the end of memory it faults (the spec's decision D8). -/
def Obligations.JeqJumpsOnEqual : Prop :=
  ∀ (a : Byte) (ra : RegIndex) (s : State), a.toNat = ra.val →
    (s.fl.getLsbD 0 = true → exec (.jeq a) s = .next { s with pc := s.reg ra }) ∧
    (s.fl.getLsbD 0 = false → s.pc.toNat + 2 ≤ 255 →
      exec (.jeq a) s = .next { s with pc := BitVec.ofNat 8 (s.pc.toNat + 2) }) ∧
    (s.fl.getLsbD 0 = false → 255 < s.pc.toNat + 2 →
      exec (.jeq a) s = .next { s with status := .faulted (.addressErrorMem (s.pc.toNat + 2) s.pc) })

/-- 42_branch.md, JNE: with bit 0 of `fl` clear, `pc` becomes the register's value; with it set, `pc` advances by 2;
nothing else changes. Not taken at the end of memory it faults (the spec's decision D8). -/
def Obligations.JneJumpsOnNotEqual : Prop :=
  ∀ (a : Byte) (ra : RegIndex) (s : State), a.toNat = ra.val →
    (s.fl.getLsbD 0 = false → exec (.jne a) s = .next { s with pc := s.reg ra }) ∧
    (s.fl.getLsbD 0 = true → s.pc.toNat + 2 ≤ 255 →
      exec (.jne a) s = .next { s with pc := BitVec.ofNat 8 (s.pc.toNat + 2) }) ∧
    (s.fl.getLsbD 0 = true → 255 < s.pc.toNat + 2 →
      exec (.jne a) s = .next { s with status := .faulted (.addressErrorMem (s.pc.toNat + 2) s.pc) })

/-! ## Data, output, halt -/

/-- 43_data_io_halt.md, LDI: the register takes the immediate byte as stored, every value legal; `pc` advances by 3;
nothing else changes. At the end of memory the load stays committed and the machine faults (D8). -/
def Obligations.LdiLoadsImmediate : Prop :=
  ∀ (a imm : Byte) (ra : RegIndex) (s : State), a.toNat = ra.val →
    (s.pc.toNat + 3 ≤ 255 →
      exec (.ldi a imm) s = .next { s.setReg ra imm with pc := BitVec.ofNat 8 (s.pc.toNat + 3) }) ∧
    (255 < s.pc.toNat + 3 →
      exec (.ldi a imm) s =
        .next { s.setReg ra imm with status := .faulted (.addressErrorMem (s.pc.toNat + 3) s.pc) })

/-- 43_data_io_halt.md, PRN: the register's value is appended to the output; `pc` advances by 2; nothing else changes.
At the end of memory the value stays emitted and the machine faults (D8). -/
def Obligations.PrnAppendsRegister : Prop :=
  ∀ (a : Byte) (ra : RegIndex) (s : State), a.toNat = ra.val →
    (s.pc.toNat + 2 ≤ 255 →
      exec (.prn a) s =
        .next { s with out := s.out ++ [s.reg ra], pc := BitVec.ofNat 8 (s.pc.toNat + 2) }) ∧
    (255 < s.pc.toNat + 2 →
      exec (.prn a) s =
        .next { s with out := s.out ++ [s.reg ra], status := .faulted (.addressErrorMem (s.pc.toNat + 2) s.pc) })

/-- 43_data_io_halt.md, HLT: the status becomes `Halted` and nothing else changes; that `pc` stays is the spec's
decision D12. It is the only instruction that halts. -/
def Obligations.HltHalts : Prop :=
  (∀ s : State, exec .hlt s = .next { s with status := .halted }) ∧
  ∀ (i : Instr) (s t : State), s.status = .running → exec i s = .next t → t.status = .halted → i = .hlt

/-! ## Frames -/

/-- The register frame, 10_state.md table of section 2: only LDI, ADD, MUL (operand A), POP (operand A and SP) and
PUSH, CALL, RET (SP) change a register; whatever the instruction does, every other register is unchanged. -/
def Obligations.RegistersChangeOnlyByTable : Prop :=
  ∀ (i : Instr) (s t : State) (r : RegIndex), exec i s = .next t → mayWriteReg i r = false → t.reg r = s.reg r

/-- The memory frame of the instructions that store nothing: every address reads as before. -/
def Obligations.MemoryUnchangedWithoutStore : Prop :=
  ∀ (i : Instr) (s t : State), exec i s = .next t → (∀ a, i ≠ .push a) → (∀ a, i ≠ .call a) →
    ∀ addr : Byte, t.mem.read addr = s.mem.read addr

/-- The memory frame of PUSH and CALL, with the address their meanings compute (`spDown`, `x[7]` - 1): every address
but that one reads as before, and where there is no such address every address does. -/
def Obligations.PushAndCallStoreOnlyAtSpDown : Prop :=
  ∀ (i : Instr) (s t : State) (a : Byte), i = .push a ∨ i = .call a → exec i s = .next t →
    (∀ d : Byte, spDown s = .ok d → ∀ addr : Byte, addr ≠ d → t.mem.read addr = s.mem.read addr) ∧
    (∀ c, spDown s = .error c → ∀ addr : Byte, t.mem.read addr = s.mem.read addr)

/-- The flag rules of 10_state.md section 4. No instruction but CMP changes `fl`. No instruction but JEQ and JNE
depends on it: from the same state with other flags the same effects follow; a CMP of two valid registers leaves the
same state whatever the flags were, and a CMP that faults on a register byte keeps them. JEQ and JNE depend on bit 0
alone, and whatever bit 0 is they leave the same registers, memory and output. So `fl` reaches no register, cell or
output in one instruction. -/
def Obligations.FlagsFlowOnlyFromCmpToBranches : Prop :=
  (∀ (i : Instr) (s t : State), exec i s = .next t → (∀ a b, i ≠ .cmp a b) → t.fl = s.fl) ∧
  (∀ (i : Instr) (s t : State) (f : Byte), exec i s = .next t →
    (∀ a b, i ≠ .cmp a b) → (∀ a, i ≠ .jeq a) → (∀ a, i ≠ .jne a) →
    exec i { s with fl := f } = .next { t with fl := f }) ∧
  (∀ (a b : Byte) (s : State) (f : Byte), a.toNat ≤ 7 → b.toNat ≤ 7 →
    exec (.cmp a b) { s with fl := f } = exec (.cmp a b) s) ∧
  (∀ (a b : Byte) (s t : State) (f : Byte), 7 < a.toNat ∨ 7 < b.toNat → exec (.cmp a b) s = .next t →
    exec (.cmp a b) { s with fl := f } = .next { t with fl := f }) ∧
  (∀ (i : Instr) (s t : State) (a f : Byte), i = .jeq a ∨ i = .jne a → f.getLsbD 0 = s.fl.getLsbD 0 →
    exec i s = .next t → exec i { s with fl := f } = .next { t with fl := f }) ∧
  (∀ (i : Instr) (s t : State) (a f : Byte), i = .jeq a ∨ i = .jne a → exec i s = .next t →
    ∃ w, exec i { s with fl := f } = .next w ∧ w.x = t.x ∧ w.mem = t.mem ∧ w.out = t.out)

/-- The output rules of 10_state.md section 6: PRN of a valid register appends its value, nothing else changes the
trace, and no instruction reads it: from the same state with another trace the same effects follow. -/
def Obligations.OutputOnlyGrowsByPrn : Prop :=
  State.reset.out = [] ∧
  ∀ (i : Instr) (s t : State), exec i s = .next t → ∃ e : List Byte, t.out = s.out ++ e ∧
    (∀ (a : Byte) (ra : RegIndex), i = .prn a → a.toNat = ra.val → e = [s.reg ra]) ∧
    ((∀ (a : Byte) (ra : RegIndex), i = .prn a → a.toNat ≠ ra.val) → e = []) ∧
    ∀ o : List Byte, exec i { s with out := o } = .next { t with out := o ++ e }

/-! ## Whole-machine rules -/

/-- 60_exceptions.md section 4, fault entry (the spec's decision D10): a step that faults keeps `pc`, and either
changes nothing but the status, or is an instruction whose last byte is at address 255 and which advances
sequentially: then its effect is complete but for the `pc` (30_encoding.md section 5, D8): it wrote exactly what the
same instruction writes when, from the same state but at address 0, it completes. HLT, RET, JMP and CALL never fault
that way. -/
def Obligations.FaultsArePrecise : Prop :=
  ∀ (s t : State) (c : Cause), s.status = .running → step s = .next t → t.status = .faulted c →
    t.pc = s.pc ∧
    (t = { s with status := .faulted c } ∨
      ∃ i, decode (codeBytes s) = .ok i ∧ s.pc.toNat + i.length = 256 ∧ c = .addressErrorMem 256 s.pc ∧
        i ≠ .hlt ∧ i ≠ .ret ∧ (∀ a, i ≠ .jmp a) ∧ (∀ a, i ≠ .call a) ∧
        exec i { s with pc := 0 } = .next { t with pc := BitVec.ofNat 8 i.length, status := s.status })

/-- The machine halts exactly by the HLT byte at the program counter, and then nothing but the status changes. -/
def Obligations.OnlyHltByteHalts : Prop :=
  ∀ s t : State, s.status = .running → step s = .next t →
    (t.status = .halted ↔ s.mem.read s.pc = 0x01) ∧
    (t.status = .halted → t = { s with status := .halted })

/-- A straight-line instruction that completes leaves `pc` at its own address plus its length, never wrapped: no
sequential step goes from the end of memory to address 0 (the spec's decision D8). -/
def Obligations.SequentialAdvanceNeverWraps : Prop :=
  ∀ (s t : State) (i : Instr), s.status = .running → decode (codeBytes s) = .ok i → straightLine i = true →
    step s = .next t → t.status = .running → t.pc.toNat = s.pc.toNat + i.length

/-- The invariant `State.Inv` holds at reset. The reset values it is checked at are those of log entry 3. -/
def Obligations.InvariantAtReset : Prop := State.reset.Inv

/-- Every step keeps the invariant: memory stays canonical, `fl` stays one of 0x00, 0x01, 0x02, 0x04, and a fault
record names the faulting address and a value the rules can meet, address -1 or 256, a register byte above 7, an
opcode outside the table. -/
def Obligations.StepKeepsInvariant : Prop :=
  ∀ s t : State, s.Inv → step s = .next t → t.Inv

/-- Once a comparison has executed the flags are never all clear again (10_state.md section 4, derived there). -/
def Obligations.FlagsNeverClearAfterCmp : Prop :=
  ∀ s t : State, step s = .next t → (s.fl = 0x01 ∨ s.fl = 0x02 ∨ s.fl = 0x04) →
    t.fl = 0x01 ∨ t.fl = 0x02 ∨ t.fl = 0x04

/-- The internal dispatch error is unreachable, from any running state at all (60_exceptions.md section 2, derived
there). -/
def Obligations.InternalDispatchErrorUnreachable : Prop :=
  ∀ s t : State, s.status = .running → step s = .next t → t.status ≠ .faulted .internalDispatchError

/-! ## Reset and launch -/

/-- The reset values of 10_state.md section 9: every cell zero, `x[0]` to `x[6]` zero, `x[7]` 0xFF (the spec's decision
D3), `pc` 0, `fl` 0 (D4), running, nothing emitted. That nothing is loaded is the model's choice (log entry 3). -/
def Obligations.ResetValues : Prop :=
  (∀ a : Byte, State.reset.mem.read a = 0x00) ∧
  (∀ r : RegIndex, r ≠ 7 → State.reset.reg r = 0x00) ∧ State.reset.reg 7 = 0xFF ∧
  State.reset.pc = 0x00 ∧ State.reset.fl = 0x00 ∧ State.reset.status = .running ∧ State.reset.out = []

/-- 70_reset_and_hazards.md section 1: a launch places an image of at most 256 bytes from address 0, the other cells
zero and the rest as at reset, for any values of the two parameters; a longer image is a load error (the spec's
decision D16). -/
def Obligations.LaunchPlacesImage : Prop :=
  ∀ (sp fl : Byte) (image : List Byte),
    (256 < image.length → State.launchWith sp fl image = .error (.imageTooLong image.length)) ∧
    (image.length ≤ 256 → ∃ s, State.launchWith sp fl image = .ok s ∧ s.mem.wf = true ∧
      (∀ a : Byte, s.mem.read a = (image[a.toNat]?).getD 0x00) ∧
      (∀ r : RegIndex, r ≠ 7 → s.reg r = 0x00) ∧ s.reg 7 = sp ∧
      s.pc = 0x00 ∧ s.fl = fl ∧ s.status = .running ∧ s.out = [])

/-- R142: execution begins at address 0, with the byte the image placed there; no reset vector is read. -/
def Obligations.FirstInstructionAtAddressZero : Prop :=
  ∀ (image : List Byte) (s : State), State.launch image = .ok s →
    s.pc = 0x00 ∧ s.status = .running ∧
    (∀ i, decode (image ++ List.replicate 3 0x00) = .ok i → step s = exec i s) ∧
    ∀ b rest, image = b :: rest → s.mem.read s.pc = b

/-! ## Instructions together -/

/-- "PUSH then POP into a different register round-trips the value unchanged and leaves the stack pointer restored to
its pre-PUSH value" (41_stack_subroutine.md), the pushed cell keeping the value. -/
def Obligations.PushThenPopRoundTrips : Prop :=
  ∀ (a b : Byte) (ra rb : RegIndex) (s : State) (d : Byte), a.toNat = ra.val → b.toNat = rb.val →
    ra ≠ 7 → rb ≠ 7 → s.sp.toNat = d.toNat + 1 → s.pc.toNat + 4 ≤ 255 →
    ∃ u t, exec (.push a) s = .next u ∧ exec (.pop b) u = .next t ∧ t.reg rb = s.reg ra ∧ t.sp = s.sp ∧
      t.mem.read d = s.reg ra ∧ (∀ r, r ≠ rb → t.reg r = s.reg r) ∧ t.pc.toNat = s.pc.toNat + 4

/-- A RET that finds the stack pointer and the stack cell as the CALL left them resumes at the instruction after the
CALL, with the stack pointer restored (41_stack_subroutine.md). -/
def Obligations.RetReturnsAfterCall : Prop :=
  ∀ (a : Byte) (ra : RegIndex) (s : State), a.toNat = ra.val → s.pc.toNat + 2 ≤ 255 → s.sp.toNat ≠ 0 →
    ∃ u, exec (.call a) s = .next u ∧
      ∀ w : State, w.sp = u.sp → w.mem.read u.sp = u.mem.read u.sp →
        ∃ t, exec .ret w = .next t ∧ t.pc.toNat = s.pc.toNat + 2 ∧ t.sp = s.sp

/-- After a CMP, JEQ is taken if and only if the two compared values are equal, and JNE if and only if they are not
(40_alu.md section 3). -/
def Obligations.BranchesFollowComparison : Prop :=
  ∀ (a b c : Byte) (ra rb rc : RegIndex) (s : State), a.toNat = ra.val → b.toNat = rb.val → c.toNat = rc.val →
    s.pc.toNat + 5 ≤ 255 →
    ∃ u t w, exec (.cmp a b) s = .next u ∧ exec (.jeq c) u = .next t ∧ exec (.jne c) u = .next w ∧
      (s.reg ra = s.reg rb → t.pc = s.reg rc ∧ w.pc.toNat = s.pc.toNat + 5) ∧
      (s.reg ra ≠ s.reg rb → t.pc.toNat = s.pc.toNat + 5 ∧ w.pc = s.reg rc)

/-- "LDI r, v followed immediately by PRN r outputs exactly v" (43_data_io_halt.md), as two steps of the machine
started on those five bytes, for every register and every value. -/
def Obligations.LdiThenPrnOutputsValue : Prop :=
  ∀ (a v : Byte) (ra : RegIndex) (s : State), a.toNat = ra.val →
    State.launch (encode (.ldi a v) ++ encode (.prn a)) = .ok s →
    (runFor 2 s).out = [v] ∧ (runFor 2 s).reg ra = v ∧ (runFor 2 s).pc = 5 ∧ (runFor 2 s).status = .running

/-- 20_memory.md section 7, fetch coherence: a PUSH whose stack cell is the very next instruction's opcode byte
changes that instruction: the next step fetches the byte just pushed, and if it is the HLT byte the machine halts. -/
def Obligations.PushedByteIsFetchedNext : Prop :=
  ∀ (s : State) (a : Byte) (ra : RegIndex), s.status = .running → decode (codeBytes s) = .ok (.push a) →
    a.toNat = ra.val → ra ≠ 7 → s.pc.toNat + 2 ≤ 255 → s.sp.toNat = s.pc.toNat + 3 →
    ∃ u, step s = .next u ∧ u.status = .running ∧ (codeBytes u)[0]? = some (s.reg ra) ∧
      (s.reg ra = 0x01 → step u = .next { u with status := .halted })

/-- A jump to its own address keeps stepping for ever: the machine stays in that state after any number of steps, so
the run has no outcome (42_branch.md, 70_reset_and_hazards.md section 2). -/
def Obligations.JumpToSelfRunsForever : Prop :=
  ∀ (s : State) (a : Byte) (ra : RegIndex) (n : Nat), s.status = .running → decode (codeBytes s) = .ok (.jmp a) →
    a.toNat = ra.val → s.reg ra = s.pc → runFor n s = s ∧ (runFor n s).status.outcome = none
end

