-- ==== Sys2Proof/Laws/Memory.lean ====
section
/-! SUPPORT. The laws of memory: a read after a write to the same cell gives the value written, a write leaves every
other cell alone, and every memory operation keeps the canonical form. -/

namespace Sys2Proof.Machine

/-! ## The cells -/

theorem Memory.lookup_erase_same (m : Memory) (a : Nat) : (m.erase a).lookup a = Config.unlistedByte := by
  induction m with
  | nil => rfl
  | cons c m ih =>
    obtain ⟨k, w⟩ := c
    by_cases h : k = a <;> simp [Memory.erase, Memory.lookup, h, ih]

theorem Memory.lookup_erase_ne {a b : Nat} (h : b ≠ a) (m : Memory) : (m.erase a).lookup b = m.lookup b := by
  induction m with
  | nil => rfl
  | cons c m ih =>
    obtain ⟨k, w⟩ := c
    by_cases hk : k = a
    · have : k ≠ b := fun e => h (e ▸ hk)
      simp [Memory.erase, Memory.lookup, hk, ih, hk ▸ this]
    · simp [Memory.erase, Memory.lookup, hk, ih]

/-- A list none of whose entries is cell `a`. -/
def Memory.lacks (m : Memory) (a : Nat) : Prop := ∀ c ∈ m, c.1 ≠ a

theorem Memory.lacks_erase (m : Memory) (a : Nat) : (m.erase a).lacks a := by
  induction m with
  | nil => simp [Memory.lacks, Memory.erase]
  | cons c m ih =>
    obtain ⟨k, w⟩ := c
    intro d hd
    by_cases hk : k = a
    · exact ih d (by simpa [Memory.erase, hk] using hd)
    · rcases List.mem_cons.1 (by simpa [Memory.erase, hk] using hd) with rfl | hd
      · exact hk
      · exact ih d hd

theorem Memory.lookup_place_same {m : Memory} {a : Nat} (h : m.lacks a) (v : Byte) :
    (m.place a v).lookup a = v := by
  induction m with
  | nil => simp [Memory.place, Memory.lookup]
  | cons c m ih =>
    obtain ⟨k, w⟩ := c
    have hk : k ≠ a := h (k, w) (by simp)
    have hm : Memory.lacks m a := fun c hc => h c (by simp [hc])
    by_cases hlt : a < k <;> simp [Memory.place, Memory.lookup, hlt, hk, ih hm]

theorem Memory.lookup_place_ne {a b : Nat} (h : b ≠ a) (m : Memory) (v : Byte) :
    (m.place a v).lookup b = m.lookup b := by
  induction m with
  | nil => simp [Memory.place, Memory.lookup, h.symm]
  | cons c m ih =>
    obtain ⟨k, w⟩ := c
    by_cases hlt : a < k <;> simp [Memory.place, Memory.lookup, hlt, h.symm, ih]

/-! ## Read after write (spec R31, R32) -/

@[simp] theorem Memory.read_write_same (m : Memory) (a v : Byte) : (m.write a v).read a = v := by
  unfold Memory.read Memory.write
  split
  case isTrue h => rw [Memory.lookup_erase_same, h]
  case isFalse => exact Memory.lookup_place_same (m.lacks_erase _) v

theorem Memory.read_write_ne {a b : Byte} (h : b ≠ a) (m : Memory) (v : Byte) :
    (m.write a v).read b = m.read b := by
  have hn : b.toNat ≠ a.toNat := fun e => h (BitVec.eq_of_toNat_eq e)
  unfold Memory.read Memory.write
  split
  · exact Memory.lookup_erase_ne hn m
  · rw [Memory.lookup_place_ne hn, Memory.lookup_erase_ne hn]

/-- The memory after a write, read anywhere. -/
theorem Memory.read_write (m : Memory) (a v b : Byte) :
    (m.write a v).read b = if b = a then v else m.read b := by
  split
  case isTrue h => subst h; simp
  case isFalse h => exact Memory.read_write_ne h m v

/-! ## The canonical form -/

theorem Memory.wfFrom_cons {lo k : Nat} {w : Byte} {m : Memory} :
    Memory.wfFrom lo ((k, w) :: m) = true ↔
      lo ≤ k ∧ k < 256 ∧ w ≠ Config.unlistedByte ∧ Memory.wfFrom (k + 1) m = true := by
  simp only [Memory.wfFrom, Bool.and_eq_true, decide_eq_true_eq, and_assoc]
  exact Iff.rfl

theorem Memory.wfFrom_mono {m : Memory} {lo hi : Nat} (h : lo ≤ hi) (hm : m.wfFrom hi = true) :
    m.wfFrom lo = true := by
  cases m with
  | nil => rfl
  | cons c m =>
    obtain ⟨k, w⟩ := c
    rw [Memory.wfFrom_cons] at hm ⊢
    exact ⟨h.trans hm.1, hm.2⟩

theorem Memory.wfFrom_erase {m : Memory} {lo : Nat} (a : Nat) (hm : m.wfFrom lo = true) :
    (m.erase a).wfFrom lo = true := by
  induction m generalizing lo with
  | nil => rfl
  | cons c m ih =>
    obtain ⟨k, w⟩ := c
    rw [Memory.wfFrom_cons] at hm
    obtain ⟨h1, h2, h3, h4⟩ := hm
    by_cases hk : k = a
    · simpa [Memory.erase, hk] using Memory.wfFrom_mono (by omega) (ih h4)
    · simpa [Memory.erase, hk, Memory.wfFrom_cons] using ⟨h1, h2, h3, ih h4⟩

theorem Memory.wfFrom_place {m : Memory} {lo a : Nat} {v : Byte} (hm : m.wfFrom lo = true) (hl : m.lacks a)
    (ha : lo ≤ a) (hb : a < 256) (hv : v ≠ Config.unlistedByte) : (m.place a v).wfFrom lo = true := by
  induction m generalizing lo with
  | nil => exact Memory.wfFrom_cons.2 ⟨ha, hb, hv, rfl⟩
  | cons c m ih =>
    obtain ⟨k, w⟩ := c
    have hk : k ≠ a := hl (k, w) (by simp)
    have hl' : Memory.lacks m a := fun c hc => hl c (by simp [hc])
    rw [Memory.wfFrom_cons] at hm
    obtain ⟨h1, h2, h3, h4⟩ := hm
    by_cases hlt : a < k
    · simp only [Memory.place, hlt, if_true, Memory.wfFrom_cons]
      exact ⟨ha, hb, hv, hlt, h2, h3, h4⟩
    · simp only [Memory.place, hlt, if_false, Memory.wfFrom_cons]
      exact ⟨h1, h2, h3, ih h4 hl' (by omega)⟩

/-- A write keeps the canonical form. -/
theorem Memory.wf_write {m : Memory} (a v : Byte) (h : m.wf = true) : (m.write a v).wf = true := by
  have he := Memory.wfFrom_erase a.toNat h
  unfold Memory.write
  split
  · exact he
  case isFalse hv => exact Memory.wfFrom_place he (m.lacks_erase _) (Nat.zero_le _) a.isLt hv

/-- Loading bytes keeps the canonical form. -/
theorem Memory.wf_load {m : Memory} (a : Nat) (bs : List Byte) (h : m.wf = true) : (m.load a bs).wf = true := by
  induction bs generalizing m a with
  | nil => exact h
  | cons b bs ih =>
    unfold Memory.load
    split
    · exact ih _ (Memory.wf_write _ _ h)
    · exact h

theorem Memory.wf_reset : State.reset.mem.wf = true := rfl

/-- A cell below the lower bound of a canonical list is unlisted. -/
theorem Memory.lookup_below {m : Memory} {lo a : Nat} (h : m.wfFrom lo = true) (ha : a < lo) :
    m.lookup a = Config.unlistedByte := by
  induction m generalizing lo with
  | nil => rfl
  | cons c m ih =>
    obtain ⟨k, w⟩ := c
    rw [Memory.wfFrom_cons] at h
    have : k ≠ a := by omega
    simpa [Memory.lookup, this] using ih h.2.2.2 (by omega)

/-- What a load leaves in a cell. -/
theorem Memory.read_load (m : Memory) (a : Nat) (bs : List Byte) (b : Byte) :
    (m.load a bs).read b =
      if a ≤ b.toNat then (bs[b.toNat - a]?).getD (m.read b) else m.read b := by
  induction bs generalizing m a with
  | nil => simp [Memory.load]
  | cons v bs ih =>
    have hb := b.isLt
    by_cases ha : a < 256
    · simp only [Memory.load, Config.memSize, ha, if_true]
      rw [ih, Memory.read_write]
      have ht : (BitVec.ofNat 8 a).toNat = a := by
        rw [BitVec.toNat_ofNat]; exact Nat.mod_eq_of_lt (by omega)
      have hba : b = BitVec.ofNat 8 a ↔ b.toNat = a := by
        rw [← BitVec.toNat_inj, ht]
      rcases Nat.lt_trichotomy b.toNat a with h | h | h
      · simp [hba, show ¬ a + 1 ≤ b.toNat by omega, show ¬ a ≤ b.toNat by omega, show b.toNat ≠ a by omega]
      · simp [hba, h]
      · obtain ⟨d, hd⟩ : ∃ d, b.toNat - a = d + 1 := ⟨b.toNat - a - 1, by omega⟩
        have hd' : b.toNat - (a + 1) = d := by omega
        simp [hba, show a + 1 ≤ b.toNat by omega, show a ≤ b.toNat by omega, show b.toNat ≠ a by omega, hd, hd']
    · simp only [Memory.load, Config.memSize, ha, if_false]
      simp [show ¬ a ≤ b.toNat by omega]

end Sys2Proof.Machine
end

