-- ==== Sys2Proof/Laws/Ops.lean ====
section
/-! SUPPORT. What each shared operation can do, said once: later proofs cite these and do not unfold the operations. -/

namespace Sys2Proof.Machine

/-! ## Faults and checks -/

theorem raise_eq (s : State) (c : Cause) : raise s c = .next { s with status := .faulted c } := rfl

@[simp] theorem orRaise_ok {α : Type} (s : State) (v : α) (k : α → Result) : orRaise s (.ok v) k = k v := rfl

@[simp] theorem orRaise_error {α : Type} (s : State) (c : Cause) (k : α → Result) :
    orRaise s (.error c) k = raise s c := rfl

/-- A checked computation either succeeds and goes on, or its fault is taken. -/
theorem orRaise_cases {α : Type} (s : State) (r : Except Cause α) (k : α → Result) :
    (∃ v, r = .ok v ∧ orRaise s r k = k v) ∨ (∃ c, r = .error c ∧ orRaise s r k = raise s c) := by
  cases r with
  | ok v => exact .inl ⟨v, rfl, rfl⟩
  | error c => exact .inr ⟨c, rfl, rfl⟩

theorem whenRunning_running {s : State} (h : s.status = .running) (r : Result) : whenRunning s r = r := by
  simp [whenRunning, h]

theorem whenRunning_halted {s : State} (h : s.status = .halted) (r : Result) :
    whenRunning s r = .fault .halted := by
  simp [whenRunning, h]

theorem whenRunning_faulted {s : State} {c : Cause} (h : s.status = .faulted c) (r : Result) :
    whenRunning s r = .fault (.faulted c) := by
  simp [whenRunning, h]

/-! ## Addresses (spec R31, R32, R45, R59) -/

theorem checkAddress_error {pc0 : Byte} {v : Int} (h : v < 0 ∨ 255 < v) :
    checkAddress pc0 v = .error (.addressErrorMem v pc0) := by
  simp [checkAddress, h]

theorem checkAddress_ok {pc0 : Byte} {v : Int} (h0 : 0 ≤ v) (h1 : v ≤ 255) :
    checkAddress pc0 v = .ok (BitVec.ofNat 8 v.toNat) := by
  have : ¬ (v < 0 ∨ 255 < v) := by omega
  simp [checkAddress, this]

/-- A byte is an address as it stands. -/
@[simp] theorem checkAddress_byte (pc0 a : Byte) : checkAddress pc0 (a.toNat : Int) = .ok a := by
  have := a.isLt
  rw [checkAddress_ok (by omega) (by omega)]
  simp

/-- A value that equals a byte's is that address. -/
theorem checkAddress_of_eq {pc0 a : Byte} {v : Int} (h : v = (a.toNat : Int)) : checkAddress pc0 v = .ok a := by
  rw [h, checkAddress_byte]

/-- Every check either gives the address with that value or the fault that records the value. -/
theorem checkAddress_cases (pc0 : Byte) (v : Int) :
    (∃ a : Byte, (a.toNat : Int) = v ∧ checkAddress pc0 v = .ok a) ∨
      ((v < 0 ∨ 255 < v) ∧ checkAddress pc0 v = .error (.addressErrorMem v pc0)) := by
  by_cases h : v < 0 ∨ 255 < v
  · exact .inr ⟨h, checkAddress_error h⟩
  · refine .inl ⟨BitVec.ofNat 8 v.toNat, ?_, checkAddress_ok (by omega) (by omega)⟩
    rw [BitVec.toNat_ofNat, Nat.mod_eq_of_lt (by omega)]
    omega

@[simp] theorem memRead_byte (s : State) (a : Byte) : memRead s (a.toNat : Int) = .ok (s.mem.read a) := by
  simp [memRead]

theorem memRead_error {s : State} {v : Int} (h : v < 0 ∨ 255 < v) :
    memRead s v = .error (.addressErrorMem v s.pc) := by
  simp [memRead, checkAddress_error h]

@[simp] theorem memWrite_byte (s : State) (a v : Byte) :
    memWrite s (a.toNat : Int) v = .ok (s.setMem (s.mem.write a v)) := by
  simp [memWrite]

theorem memWrite_error {s : State} {w : Int} (h : w < 0 ∨ 255 < w) (v : Byte) :
    memWrite s w v = .error (.addressErrorMem w s.pc) := by
  simp [memWrite, checkAddress_error h]

theorem advancePc_ok {s : State} {L : Nat} (h : s.pc.toNat + L ≤ 255) :
    advancePc L s = .next (s.setPc (BitVec.ofNat 8 (s.pc.toNat + L))) := by
  unfold advancePc
  rw [checkAddress_ok (by omega) (by omega)]
  rfl

theorem advancePc_fault {s : State} {L : Nat} (h : 255 < s.pc.toNat + L) :
    advancePc L s = raise s (.addressErrorMem ((s.pc.toNat : Int) + (L : Int)) s.pc) := by
  unfold advancePc
  rw [checkAddress_error (by omega)]
  rfl

/-- The advance either moves `pc` by `L` without wrapping, or faults on the committed state. -/
theorem advancePc_cases (L : Nat) (s : State) :
    (s.pc.toNat + L ≤ 255 ∧ advancePc L s = .next (s.setPc (BitVec.ofNat 8 (s.pc.toNat + L)))) ∨
      (255 < s.pc.toNat + L ∧
        advancePc L s = raise s (.addressErrorMem ((s.pc.toNat : Int) + (L : Int)) s.pc)) := by
  by_cases h : s.pc.toNat + L ≤ 255
  · exact .inl ⟨h, advancePc_ok h⟩
  · exact .inr ⟨by omega, advancePc_fault (by omega)⟩

/-! ## Operands (spec R14, R80, R83) -/

theorem regIdx_ok {s : State} {b : Byte} {r : RegIndex} (h : b.toNat = r.val) : regIdx s b = .ok r := by
  simp [regIdx, h]

theorem regIdx_error {s : State} {b : Byte} (h : 7 < b.toNat) : regIdx s b = .error (.addressErrorReg b s.pc) := by
  simp [regIdx, show ¬ b.toNat < 8 by omega]

theorem regIdx_cases (s : State) (b : Byte) :
    (∃ r : RegIndex, b.toNat = r.val ∧ regIdx s b = .ok r) ∨
      (7 < b.toNat ∧ regIdx s b = .error (.addressErrorReg b s.pc)) := by
  by_cases h : 7 < b.toNat
  · exact .inr ⟨h, regIdx_error h⟩
  · exact .inl ⟨⟨b.toNat, by omega⟩, rfl, regIdx_ok rfl⟩

theorem spDown_ok {s : State} {t : Byte} (h : s.sp.toNat = t.toNat + 1) : spDown s = .ok t :=
  checkAddress_of_eq (by omega)

theorem spDown_error {s : State} (h : s.sp.toNat = 0) : spDown s = .error (.addressErrorMem (-1) s.pc) := by
  unfold spDown
  rw [h, checkAddress_error (by omega)]
  rfl

theorem spDown_cases (s : State) :
    (∃ t : Byte, s.sp.toNat = t.toNat + 1 ∧ spDown s = .ok t) ∨
      (s.sp.toNat = 0 ∧ spDown s = .error (.addressErrorMem (-1) s.pc)) := by
  by_cases h : s.sp.toNat = 0
  · exact .inr ⟨h, spDown_error h⟩
  · have hlt := s.sp.isLt
    have ht : (BitVec.ofNat 8 (s.sp.toNat - 1)).toNat = s.sp.toNat - 1 := by
      rw [BitVec.toNat_ofNat]; exact Nat.mod_eq_of_lt (by omega)
    have hs : s.sp.toNat = (BitVec.ofNat 8 (s.sp.toNat - 1)).toNat + 1 := by omega
    exact .inl ⟨_, hs, spDown_ok hs⟩

theorem spUp_ok {s : State} {v t : Byte} (h : t.toNat = v.toNat + 1) : spUp s v = .ok t :=
  checkAddress_of_eq (by omega)

theorem spUp_error {s : State} {v : Byte} (h : v.toNat = 255) : spUp s v = .error (.addressErrorMem 256 s.pc) := by
  unfold spUp
  rw [h, checkAddress_error (by omega)]
  rfl

theorem spUp_cases (s : State) (v : Byte) :
    (∃ t : Byte, t.toNat = v.toNat + 1 ∧ spUp s v = .ok t) ∨
      (v.toNat = 255 ∧ spUp s v = .error (.addressErrorMem 256 s.pc)) := by
  by_cases h : v.toNat = 255
  · exact .inr ⟨h, spUp_error h⟩
  · have hlt := v.isLt
    have ht : (BitVec.ofNat 8 (v.toNat + 1)).toNat = v.toNat + 1 := by
      rw [BitVec.toNat_ofNat]; exact Nat.mod_eq_of_lt (by omega)
    exact .inl ⟨_, ht, spUp_ok ht⟩

theorem returnAddress_ok {s : State} (h : s.pc.toNat + 2 ≤ 255) :
    returnAddress s = .ok (BitVec.ofNat 8 (s.pc.toNat + 2)) := by
  unfold returnAddress
  rw [checkAddress_ok (by omega) (by omega)]
  rfl

theorem returnAddress_error {s : State} (h : 255 < s.pc.toNat + 2) :
    returnAddress s = .error (.addressErrorMem ((s.pc.toNat : Int) + 2) s.pc) :=
  checkAddress_error (by omega)

theorem returnAddress_cases (s : State) :
    (s.pc.toNat + 2 ≤ 255 ∧ returnAddress s = .ok (BitVec.ofNat 8 (s.pc.toNat + 2))) ∨
      (255 < s.pc.toNat + 2 ∧ returnAddress s = .error (.addressErrorMem ((s.pc.toNat : Int) + 2) s.pc)) := by
  by_cases h : s.pc.toNat + 2 ≤ 255
  · exact .inl ⟨h, returnAddress_ok h⟩
  · exact .inr ⟨by omega, returnAddress_error (by omega)⟩

/-! ## Flags (spec R73, R75) -/

/-- The three rows of table R75. -/
theorem compareFlags_cases (u v : Byte) :
    (u.toNat = v.toNat ∧ compareFlags u v = 0x01) ∨ (v.toNat < u.toNat ∧ compareFlags u v = 0x02) ∨
      (u.toNat < v.toNat ∧ compareFlags u v = 0x04) := by
  rcases Nat.lt_trichotomy u.toNat v.toNat with h | h | h
  · exact .inr (.inr ⟨h, by simp [compareFlags, show u.toNat ≠ v.toNat by omega, show ¬ v.toNat < u.toNat by omega]⟩)
  · exact .inl ⟨h, by simp [compareFlags, h]⟩
  · exact .inr (.inl ⟨h, by simp [compareFlags, show u.toNat ≠ v.toNat by omega, h]⟩)

end Sys2Proof.Machine
end

