-- ==== Sys2Proof/Laws/Decode.lean ====
section
/-! SUPPORT. The decoder: what it reads, and that the machine's fetch and the list decoder are one decoder. -/

namespace Sys2Proof

/-- The decoder's answer depends only on the bytes it is given: two ways to read that correspond, byte by byte, up to
a change of the error, give corresponding answers. -/
theorem decodeWith_map {ε δ : Type} (f : ε → δ) {illegal : Byte → ε} {illegal' : Byte → δ}
    {read : Nat → Except ε Byte} {read' : Nat → Except δ Byte} (hi : ∀ op, illegal' op = f (illegal op))
    (hr : ∀ k, k < 3 → read' k = (read k).mapError f) :
    decodeWith illegal' read' = (decodeWith illegal read).mapError f := by
  unfold decodeWith
  rw [hr 0 (by omega)]
  cases read 0 with
  | error e => rfl
  | ok op =>
    simp only [Except.mapError]
    cases opcodeRow op with
    | none => simp [hi]
    | some row =>
      cases row with
      | f0 i => rfl
      | f1 make => simp only; rw [hr 1 (by omega)]; cases read 1 <;> rfl
      | f2 make =>
        simp only
        rw [hr 1 (by omega)]
        cases read 1 with
        | error e => rfl
        | ok a => simp only [Except.mapError]; rw [hr 2 (by omega)]; cases read 2 <;> rfl

/-- What holds of both branches holds of a row of the table and of the rest of the table. -/
theorem opcodeRow_branch {c : Prop} [Decidable c] (P : Option Format → Prop) {x y : Option Format} (hx : c → P x)
    (hy : P y) : P (if c then x else y) := by
  split
  case isTrue h => exact hx h
  case isFalse => exact hy

/-- What a row of the table can be: none, or a format whose instructions have this opcode byte first and the operand
bytes after it (spec R50, R53). -/
def RowFor (op : Byte) : Option Format → Prop
  | none => True
  | some (.f0 i) => encode i = [op] ∧ i.length = 1
  | some (.f1 make) => ∀ a, encode (make a) = [op, a] ∧ (make a).length = 2
  | some (.f2 make) => ∀ a b, encode (make a b) = [op, a, b] ∧ (make a b).length = 3

/-- Every row of the table is the row of its opcode byte. -/
theorem opcodeRow_rowFor (op : Byte) : RowFor op (opcodeRow op) := by
  unfold opcodeRow
  repeat
    refine opcodeRow_branch _ (fun h => ?_) ?_
    · subst h
      first
        | exact ⟨rfl, rfl⟩
        | exact fun _ => ⟨rfl, rfl⟩
        | exact fun _ _ => ⟨rfl, rfl⟩
  trivial

theorem decode_cons (op : Byte) (bs : List Byte) : decode (op :: bs) =
    match opcodeRow op with
    | none => .error (.illegalOpcode op)
    | some (.f0 i) => .ok i
    | some (.f1 make) =>
      match bs with
      | [] => .error (.missingByte 1)
      | a :: _ => .ok (make a)
    | some (.f2 make) =>
      match bs with
      | [] => .error (.missingByte 1)
      | [_] => .error (.missingByte 2)
      | a :: b :: _ => .ok (make a b) := by
  unfold decode decodeWith
  simp only [byteOf, List.getElem?_cons_zero]
  cases opcodeRow op with
  | none => rfl
  | some row => cases row <;> rcases bs with _ | ⟨a, _ | ⟨b, bs⟩⟩ <;> rfl

theorem byteOf_some {bs : List Byte} {k : Nat} {b : Byte} (h : bs[k]? = some b) : byteOf bs k = .ok b := by
  simp [byteOf, h]

theorem byteOf_none {bs : List Byte} {k : Nat} (h : bs[k]? = none) : byteOf bs k = .error (.missingByte k) := by
  simp [byteOf, h]

namespace Machine

/-- The bytes of the code window, one by one: memory as far as the address space reaches, nothing beyond. -/
theorem bytesFrom_getElem? (m : Memory) (a n k : Nat) (hk : k < n) :
    (bytesFrom m a n)[k]? = if a + k < 256 then some (m.read (BitVec.ofNat 8 (a + k))) else none := by
  induction n generalizing a k with
  | zero => omega
  | succ n ih =>
    by_cases ha : a < 256
    · cases k with
      | zero => simp [bytesFrom, Config.memSize, ha]
      | succ k =>
        have := ih (a + 1) k (by omega)
        simp only [bytesFrom, Config.memSize, ha, if_true, List.getElem?_cons_succ, this]
        rw [show a + 1 + k = a + (k + 1) by omega]
    · simp [bytesFrom, Config.memSize, ha, show ¬ a + k < 256 by omega]

/-- The fault a rejection of the code window stands for in the machine (spec R56, R58). -/
def rejectCause (pc0 : Byte) : Reject → Cause
  | .illegalOpcode op => .decodeError op pc0
  | .missingByte k => .addressErrorMem ((pc0.toNat : Int) + (k : Int)) pc0

/-- The machine's fetch is the list decoder on the bytes at the program counter. -/
theorem fetch_eq_decode (s : State) : fetch s = (decode (codeBytes s)).mapError (rejectCause s.pc) := by
  refine decodeWith_map (rejectCause s.pc) (fun _ => rfl) fun k hk => ?_
  have hb := bytesFrom_getElem? s.mem s.pc.toNat 3 k hk
  by_cases h : s.pc.toNat + k < 256
  · have hlt : (BitVec.ofNat 8 (s.pc.toNat + k)).toNat = s.pc.toNat + k := by
      rw [BitVec.toNat_ofNat]; exact Nat.mod_eq_of_lt (by omega)
    rw [if_pos h] at hb
    rw [codeBytes, byteOf_some hb]
    have hr : memRead s ((s.pc.toNat : Int) + (k : Int)) =
        memRead s ((BitVec.ofNat 8 (s.pc.toNat + k)).toNat : Int) := by
      rw [hlt]; rfl
    rw [hr, memRead_byte]
    rfl
  · rw [if_neg h] at hb
    rw [codeBytes, byteOf_none hb, memRead_error (by omega)]
    rfl

end Machine

end Sys2Proof
end

