-- ==== Sys2Proof/Laws/Exec.lean ====
section
/-! SUPPORT. What an instruction can do: the closed form of each meaning that reaches memory, and the one inversion
lemma `exec_cases` from which invariants and frames follow. -/

namespace Sys2Proof.Machine

variable (a b : Byte) (s : State)

/-! ## Closed forms: the accesses that cannot fault are gone (spec R81 to R84) -/

theorem execPush_eq : execPush a s =
    orRaise s (regIdx s a) fun ra =>
    orRaise s (spDown s) fun t =>
    advancePc 2 ((s.setSp t).setMem (s.mem.write t ((s.setSp t).reg ra))) := by
  simp [execPush]

theorem execPop_eq : execPop a s =
    orRaise s (regIdx s a) fun ra =>
    orRaise s (if ra = Config.spIndex then spUp s (s.mem.read s.sp) else spUp s s.sp) fun t =>
    advancePc 2 ((s.setReg ra (s.mem.read s.sp)).setSp t) := by
  simp [execPop]

theorem execCall_eq : execCall a s =
    orRaise s (regIdx s a) fun ra =>
    orRaise s (returnAddress s) fun r =>
    orRaise s (spDown s) fun t =>
    .next (((s.setSp t).setMem (s.mem.write t r)).setPc ((s.setSp t).reg ra)) := by
  simp [execCall]

theorem execRet_eq : execRet s =
    orRaise s (spUp s s.sp) fun t => .next ((s.setSp t).setPc (s.mem.read s.sp)) := by
  simp [execRet]

/-! ## The two shared shapes (spec R70, R90) -/

/-- An ALU instruction faults on a register operand, or is the advance on what its operation makes of two registers. -/
theorem aluInstr_cases (f : RegIndex → RegIndex → State) :
    (∃ v, 7 < v.toNat ∧ aluInstr a b s f = raise s (.addressErrorReg v s.pc)) ∨
      ∃ r q : RegIndex, a.toNat = r.val ∧ b.toNat = q.val ∧ aluInstr a b s f = advancePc 3 (f r q) := by
  rcases regIdx_cases s a with ⟨r, hr, e⟩ | ⟨hb, e⟩
  · rcases regIdx_cases s b with ⟨q, hq, e'⟩ | ⟨hb, e'⟩
    · exact .inr ⟨r, q, hr, hq, by simp [aluInstr, e, e']⟩
    · exact .inl ⟨b, hb, by simp [aluInstr, e, e']⟩
  · exact .inl ⟨a, hb, by simp [aluInstr, e]⟩

/-- A branch, taken or not, completed or faulted, changes nothing but `pc` and the status. -/
theorem branchWhen_frame (taken : Bool) :
    ∃ t, branchWhen taken a s = .next t ∧ t.mem = s.mem ∧ t.x = s.x ∧ t.fl = s.fl ∧ t.out = s.out := by
  rcases regIdx_cases s a with ⟨r, _, e⟩ | ⟨_, e⟩
  · cases taken with
    | true => exact ⟨s.setPc (s.reg r), by simp [branchWhen, e], rfl, rfl, rfl, rfl⟩
    | false =>
      rcases advancePc_cases 2 s with ⟨_, e'⟩ | ⟨_, e'⟩
      · exact ⟨s.setPc (BitVec.ofNat 8 (s.pc.toNat + 2)), by simp [branchWhen, e, e'], rfl, rfl, rfl, rfl⟩
      · exact ⟨s.setStatus (.faulted (.addressErrorMem ((s.pc.toNat : Int) + 2) s.pc)), by
          simp [branchWhen, e, e', raise], rfl, rfl, rfl, rfl⟩
  · exact ⟨s.setStatus (.faulted (.addressErrorReg a s.pc)), by simp [branchWhen, e, raise], rfl, rfl, rfl, rfl⟩

/-! ## Inversion -/

/-- What the writes of an instruction before its `pc` update can be: `pc` and `status` are untouched, at most one cell
is written, and the flags are kept or are one of CMP's three results. -/
structure Effect (s u : State) : Prop where
  pc : u.pc = s.pc
  status : u.status = s.status
  mem : u.mem = s.mem ∨ ∃ a v, u.mem = s.mem.write a v
  fl : u.fl = s.fl ∨ u.fl = 0x01 ∨ u.fl = 0x02 ∨ u.fl = 0x04

theorem Effect.refl : Effect s s := ⟨rfl, rfl, .inl rfl, .inl rfl⟩

theorem Effect.of_eq {s u : State} (hp : u.pc = s.pc) (hs : u.status = s.status) (hm : u.mem = s.mem)
    (hf : u.fl = s.fl) : Effect s u := ⟨hp, hs, .inl hm, .inl hf⟩

/-- The faults an instruction raises before its first write (spec R117, stages 4 to 7). -/
def EarlyFault (i : Instr) (s : State) (c : Cause) : Prop :=
  (∃ b, firstBadRegister i = some b ∧ c = .addressErrorReg b s.pc) ∨ c = .addressErrorMem (-1) s.pc ∨
    c = .addressErrorMem 256 s.pc ∨
    ((∃ a, i = .call a) ∧ 255 < s.pc.toNat + 2 ∧ c = .addressErrorMem ((s.pc.toNat : Int) + 2) s.pc)

/-- The instructions that can end with `AdvancePC` (spec R59). -/
def advances : Instr → Bool
  | .hlt => false
  | .ret => false
  | .jmp _ => false
  | .call _ => false
  | .jeq _ => true
  | .jne _ => true
  | .ldi _ _ => true
  | .prn _ => true
  | .mul _ _ => true
  | .push _ => true
  | .pop _ => true
  | .add _ _ => true
  | .cmp _ _ => true

/-- The four ways an instruction can end. -/
def Ends (i : Instr) (s : State) (r : Result) : Prop :=
  (∃ c, EarlyFault i s c ∧ r = raise s c) ∨
    (∃ u p, Effect s u ∧ r = .next (u.setPc p) ∧
      (straightLine i = true → s.pc.toNat + i.length ≤ 255 ∧ p = BitVec.ofNat 8 (s.pc.toNat + i.length))) ∨
    (∃ u, Effect s u ∧ advances i = true ∧ 255 < s.pc.toNat + i.length ∧
      r = raise u (.addressErrorMem ((s.pc.toNat : Int) + (i.length : Int)) s.pc)) ∨
    (i = .hlt ∧ r = .next (s.setStatus .halted))

variable {a b s}

theorem Ends.early {i : Instr} {c : Cause} (h : EarlyFault i s c) : Ends i s (raise s c) := .inl ⟨c, h, rfl⟩

/-- An instruction whose last action is the advance by its own length. -/
theorem Ends.advance {i : Instr} {u : State} {L : Nat} (hL : L = i.length) (he : Effect s u)
    (ha : advances i = true) : Ends i s (advancePc L u) := by
  subst hL
  rcases advancePc_cases i.length u with ⟨h, e⟩ | ⟨h, e⟩ <;> rw [e] <;> rw [he.pc] at h ⊢
  · exact .inr (.inl ⟨u, _, he, rfl, fun _ => ⟨h, rfl⟩⟩)
  · exact .inr (.inr (.inl ⟨u, he, ha, h, rfl⟩))

/-- An instruction whose last action sets `pc` to a target. -/
theorem Ends.target {i : Instr} {u : State} {p : Byte} (he : Effect s u) (hs : straightLine i = false) :
    Ends i s (.next (u.setPc p)) := .inr (.inl ⟨u, p, he, rfl, fun h => by simp [hs] at h⟩)

/-- The register check of the first operand. -/
theorem Ends.regIdx_first {i : Instr} {rest : List Byte} (hi : i.regOperands = a :: rest) {k : RegIndex → Result}
    (h : ∀ r : RegIndex, a.toNat = r.val → Ends i s (k r)) : Ends i s (orRaise s (regIdx s a) k) := by
  rcases regIdx_cases s a with ⟨r, hr, e⟩ | ⟨hb, e⟩ <;> rw [e]
  · exact h r hr
  · exact Ends.early (.inl ⟨a, by simp [firstBadRegister, hi, hb], rfl⟩)

/-- The register check of the second operand, after the first. -/
theorem Ends.regIdx_second {i : Instr} (hi : i.regOperands = [a, b]) {r : RegIndex} (hr : a.toNat = r.val)
    {k : RegIndex → Result} (h : ∀ r, Ends i s (k r)) : Ends i s (orRaise s (regIdx s b) k) := by
  rcases regIdx_cases s b with ⟨q, _, e⟩ | ⟨hb, e⟩ <;> rw [e]
  · exact h q
  · have ha : ¬ 7 < a.toNat := by have := r.isLt; omega
    exact Ends.early (.inl ⟨b, by simp [firstBadRegister, hi, List.find?, ha, hb], rfl⟩)

theorem Ends.alu {i : Instr} (hi : i.regOperands = [a, b]) (hL : i.length = 3) (hx : advances i = true)
    {f : RegIndex → RegIndex → State} (hf : ∀ r q, Effect s (f r q)) : Ends i s (aluInstr a b s f) :=
  Ends.regIdx_first hi fun _ hr => Ends.regIdx_second hi hr fun _ => Ends.advance hL.symm (hf _ _) hx

theorem Ends.branch {i : Instr} (hi : i.regOperands = [a]) (hL : i.length = 2) (hs : straightLine i = false)
    {taken : Bool} (hx : taken = true ∨ advances i = true) : Ends i s (branchWhen taken a s) :=
  Ends.regIdx_first hi fun _ _ => by
    cases taken with
    | true => exact Ends.target (Effect.refl s) hs
    | false => exact Ends.advance hL.symm (Effect.refl s) (hx.resolve_left (by simp))

theorem Ends.spDown {i : Instr} {k : Byte → Result} (h : ∀ t, Ends i s (k t)) :
    Ends i s (orRaise s (spDown s) k) := by
  rcases spDown_cases s with ⟨t, _, e⟩ | ⟨_, e⟩ <;> rw [e]
  · exact h t
  · exact Ends.early (.inr (.inl rfl))

theorem Ends.spUp {i : Instr} {v : Byte} {k : Byte → Result} (h : ∀ t, Ends i s (k t)) :
    Ends i s (orRaise s (spUp s v) k) := by
  rcases spUp_cases s v with ⟨t, _, e⟩ | ⟨_, e⟩ <;> rw [e]
  · exact h t
  · exact Ends.early (.inr (.inr (.inl rfl)))

/-- Everything an instruction can do: a fault before any write, a completed instruction, a fault of the advance with
the writes committed, or HLT. -/
theorem exec_cases (i : Instr) (s : State) : Ends i s (exec i s) := by
  cases i with
  | ldi a imm =>
    exact Ends.regIdx_first rfl fun _ _ => Ends.advance rfl (Effect.of_eq rfl rfl rfl rfl) rfl
  | prn a =>
    exact Ends.regIdx_first rfl fun _ _ => Ends.advance rfl (Effect.of_eq rfl rfl rfl rfl) rfl
  | hlt => exact .inr (.inr (.inr ⟨rfl, rfl⟩))
  | mul a b => exact Ends.alu rfl rfl rfl fun _ _ => Effect.of_eq rfl rfl rfl rfl
  | push a =>
    show Ends _ s (execPush a s)
    rw [execPush_eq]
    exact Ends.regIdx_first rfl fun _ _ => Ends.spDown fun _ =>
      Ends.advance rfl ⟨rfl, rfl, .inr ⟨_, _, rfl⟩, .inl rfl⟩ rfl
  | pop a =>
    show Ends _ s (execPop a s)
    rw [execPop_eq]
    refine Ends.regIdx_first rfl fun _ _ => ?_
    split
    all_goals exact Ends.spUp fun _ => Ends.advance rfl (Effect.of_eq rfl rfl rfl rfl) rfl
  | call a =>
    show Ends _ s (execCall a s)
    rw [execCall_eq]
    refine Ends.regIdx_first rfl fun _ _ => ?_
    rcases returnAddress_cases s with ⟨_, e⟩ | ⟨h, e⟩ <;> rw [e]
    · exact Ends.spDown fun _ => Ends.target ⟨rfl, rfl, .inr ⟨_, _, rfl⟩, .inl rfl⟩ rfl
    · exact Ends.early (.inr (.inr (.inr ⟨⟨a, rfl⟩, h, rfl⟩)))
  | ret =>
    show Ends _ s (execRet s)
    rw [execRet_eq]
    exact Ends.spUp fun _ => Ends.target (Effect.of_eq rfl rfl rfl rfl) rfl
  | add a b => exact Ends.alu rfl rfl rfl fun _ _ => Effect.of_eq rfl rfl rfl rfl
  | cmp a b =>
    refine Ends.alu rfl rfl rfl fun r q => ⟨rfl, rfl, .inl rfl, ?_⟩
    rcases compareFlags_cases (s.reg r) (s.reg q) with ⟨_, e⟩ | ⟨_, e⟩ | ⟨_, e⟩ <;> simp [e]
  | jmp a => exact Ends.branch rfl rfl rfl (.inl rfl)
  | jeq a => exact Ends.branch rfl rfl rfl (.inr rfl)
  | jne a => exact Ends.branch rfl rfl rfl (.inr rfl)

/-- What an instruction that can end with the advance does, with its position made a variable: it faults before its
first write, or is a taken branch, or is the advance by its length on a state that holds its writes, and then it makes
the same writes wherever it stands. -/
def AdvanceForm (i : Instr) (s : State) : Prop :=
  (∃ c, EarlyFault i s c ∧ exec i s = raise s c) ∨ (∃ p, exec i s = .next (s.setPc p)) ∨
    ∃ u, Effect s u ∧ ∀ q, exec i (s.setPc q) = advancePc i.length (u.setPc q)

/-- The record of a first operand above 7 is an early fault. -/
theorem EarlyFault.register {i : Instr} {rest : List Byte} (hi : i.regOperands = a :: rest) (hb : 7 < a.toNat) :
    EarlyFault i s (.addressErrorReg a s.pc) := .inl ⟨a, by simp [firstBadRegister, hi, hb], rfl⟩

theorem AdvanceForm.alu {i : Instr} {f : State → RegIndex → RegIndex → State} (hi : i.regOperands = [a, b])
    (hL : i.length = 3) (he : ∀ s, exec i s = aluInstr a b s (f s)) (hf : ∀ r q, Effect s (f s r q))
    (hp : ∀ r q p, f (s.setPc p) r q = (f s r q).setPc p) : AdvanceForm i s := by
  rcases regIdx_cases s a with ⟨r, hr, e⟩ | ⟨hb, e⟩
  · rcases regIdx_cases s b with ⟨q, hq, e'⟩ | ⟨hb, e'⟩
    · refine .inr (.inr ⟨f s r q, hf r q, fun p => ?_⟩)
      rw [he, hL]
      simp [aluInstr, regIdx_ok (s := s.setPc p) hr, regIdx_ok (s := s.setPc p) hq, hp]
    · have hn : ¬ 7 < a.toNat := by have := r.isLt; omega
      exact .inl ⟨_, .inl ⟨b, by simp [firstBadRegister, hi, List.find?, hn, hb], rfl⟩, by
        rw [he]; simp [aluInstr, e, e']⟩
  · exact .inl ⟨_, EarlyFault.register hi hb, by rw [he]; simp [aluInstr, e]⟩

theorem AdvanceForm.branch {i : Instr} {taken : Byte → Bool} (hi : i.regOperands = [a]) (hL : i.length = 2)
    (he : ∀ s, exec i s = branchWhen (taken s.fl) a s) : AdvanceForm i s := by
  rcases regIdx_cases s a with ⟨r, hr, e⟩ | ⟨hb, e⟩
  · by_cases ht : taken s.fl = true
    · exact .inr (.inl ⟨s.reg r, by rw [he]; simp [branchWhen, e, ht]⟩)
    · exact .inr (.inr ⟨s, Effect.refl s, fun p => by
        rw [he, hL]; simp [branchWhen, regIdx_ok (s := s.setPc p) hr, ht]⟩)
  · exact .inl ⟨_, EarlyFault.register hi hb, by rw [he]; simp [branchWhen, e]⟩

/-- Every instruction that can end with the advance has that form (spec R59; the spec's decision D8). -/
theorem exec_advanceForm {i : Instr} (ha : advances i = true) (s : State) : AdvanceForm i s := by
  cases i with
  | hlt => simp [advances] at ha
  | ret => simp [advances] at ha
  | jmp a => simp [advances] at ha
  | call a => simp [advances] at ha
  | ldi a imm =>
    rcases regIdx_cases s a with ⟨r, hr, e⟩ | ⟨hb, e⟩
    · exact .inr (.inr ⟨s.setReg r imm, Effect.of_eq rfl rfl rfl rfl, fun p => by
        simp [exec, execLdi, regIdx_ok (s := s.setPc p) hr, Instr.length]; rfl⟩)
    · exact .inl ⟨_, EarlyFault.register rfl hb, by simp [exec, execLdi, e]⟩
  | prn a =>
    rcases regIdx_cases s a with ⟨r, hr, e⟩ | ⟨hb, e⟩
    · exact .inr (.inr ⟨s.emit (s.reg r), Effect.of_eq rfl rfl rfl rfl, fun p => by
        simp [exec, execPrn, regIdx_ok (s := s.setPc p) hr, Instr.length]; rfl⟩)
    · exact .inl ⟨_, EarlyFault.register rfl hb, by simp [exec, execPrn, e]⟩
  | mul a b =>
    exact AdvanceForm.alu (f := fun s ra rb => s.setReg ra (BitVec.ofNat 8 ((s.reg ra).toNat * (s.reg rb).toNat)))
      rfl rfl (fun _ => rfl) (fun _ _ => Effect.of_eq rfl rfl rfl rfl) fun _ _ _ => rfl
  | add a b =>
    exact AdvanceForm.alu (f := fun s ra rb => s.setReg ra (BitVec.ofNat 8 ((s.reg ra).toNat + (s.reg rb).toNat)))
      rfl rfl (fun _ => rfl) (fun _ _ => Effect.of_eq rfl rfl rfl rfl) fun _ _ _ => rfl
  | cmp a b =>
    refine AdvanceForm.alu (f := fun s ra rb => s.setFl (compareFlags (s.reg ra) (s.reg rb)))
      rfl rfl (fun _ => rfl) (fun r q => ⟨rfl, rfl, .inl rfl, ?_⟩) fun _ _ _ => rfl
    rcases compareFlags_cases (s.reg r) (s.reg q) with ⟨_, e⟩ | ⟨_, e⟩ | ⟨_, e⟩ <;> simp [e]
  | push a =>
    rcases regIdx_cases s a with ⟨r, hr, e⟩ | ⟨hb, e⟩
    · rcases spDown_cases s with ⟨t, ht, e'⟩ | ⟨_, e'⟩
      · refine .inr (.inr ⟨(s.setSp t).setMem (s.mem.write t ((s.setSp t).reg r)),
          ⟨rfl, rfl, .inr ⟨_, _, rfl⟩, .inl rfl⟩, fun p => ?_⟩)
        show execPush a _ = _
        simp [execPush_eq, regIdx_ok (s := s.setPc p) hr, spDown_ok (s := s.setPc p) ht, Instr.length]
        rfl
      · exact .inl ⟨_, .inr (.inl rfl), by show execPush a s = _; simp [execPush_eq, e, e']⟩
    · exact .inl ⟨_, EarlyFault.register rfl hb, by show execPush a s = _; simp [execPush_eq, e]⟩
  | pop a =>
    rcases regIdx_cases s a with ⟨r, hr, e⟩ | ⟨hb, e⟩
    · have hu : ∀ p, execPop a (s.setPc p) = orRaise (s.setPc p)
          (spUp (s.setPc p) (if r = Config.spIndex then s.mem.read s.sp else s.sp)) fun t =>
          advancePc 2 (((s.setReg r (s.mem.read s.sp)).setSp t).setPc p) := by
        intro p
        simp only [execPop_eq, regIdx_ok (s := s.setPc p) hr, orRaise_ok]
        split <;> rfl
      rcases spUp_cases s (if r = Config.spIndex then s.mem.read s.sp else s.sp) with ⟨t, ht, _⟩ | ⟨h, e'⟩
      · refine .inr (.inr ⟨(s.setReg r (s.mem.read s.sp)).setSp t, Effect.of_eq rfl rfl rfl rfl, fun p => ?_⟩)
        show execPop a _ = _
        rw [hu, spUp_ok ht]
        rfl
      · exact .inl ⟨_, .inr (.inr (.inl rfl)), (hu s.pc).trans (by rw [show s.setPc s.pc = s from rfl, e']; rfl)⟩
    · exact .inl ⟨_, EarlyFault.register rfl hb, by show execPop a s = _; simp [execPop_eq, e]⟩
  | jeq a => exact AdvanceForm.branch (taken := flagE) rfl rfl fun _ => rfl
  | jne a => exact AdvanceForm.branch (taken := fun f => !flagE f) rfl rfl fun _ => rfl

end Sys2Proof.Machine
end

