-- ==== Sys2Proof/Laws/PerInstr.lean ====
section
/-! SUPPORT. A statement about every instruction as syntax, one lemma per constructor: the opcode table has a row for
its opcode byte, and that row rebuilds the instruction from its operand bytes (spec R50, R53). -/

namespace Sys2Proof.Laws.OpcodeRow

/-- The row of the instruction's own opcode byte makes it again from its operand bytes, and its length is one more
than their number (R55). -/
def Statement (i : Instr) : Prop :=
  i.length = 1 + i.operandBytes.length ∧
    match opcodeRow i.opcode, i.operandBytes with
    | some (.f0 j), [] => j = i
    | some (.f1 make), [a] => make a = i
    | some (.f2 make), [a, b] => make a b = i
    | _, _ => False

theorem ldi (a imm : Byte) : Statement (.ldi a imm) := ⟨rfl, rfl⟩
theorem prn (a : Byte) : Statement (.prn a) := ⟨rfl, rfl⟩
theorem hlt : Statement .hlt := ⟨rfl, rfl⟩
theorem mul (a b : Byte) : Statement (.mul a b) := ⟨rfl, rfl⟩
theorem push (a : Byte) : Statement (.push a) := ⟨rfl, rfl⟩
theorem pop (a : Byte) : Statement (.pop a) := ⟨rfl, rfl⟩
theorem call (a : Byte) : Statement (.call a) := ⟨rfl, rfl⟩
theorem ret : Statement .ret := ⟨rfl, rfl⟩
theorem add (a b : Byte) : Statement (.add a b) := ⟨rfl, rfl⟩
theorem cmp (a b : Byte) : Statement (.cmp a b) := ⟨rfl, rfl⟩
theorem jmp (a : Byte) : Statement (.jmp a) := ⟨rfl, rfl⟩
theorem jeq (a : Byte) : Statement (.jeq a) := ⟨rfl, rfl⟩
theorem jne (a : Byte) : Statement (.jne a) := ⟨rfl, rfl⟩

end Sys2Proof.Laws.OpcodeRow
end

