-- ==== Sys2Proof/Tests/Slice0.lean ====
section
/-! SUPPORT. Tests of the model. Expected results are the spec's own: the encodings of 30_encoding.md R53 and the
single-step vectors of 95_test_vectors.md, whose ids (A1, K4, ...) stand in the comments. -/

namespace Sys2Proof.Tests

open Sys2Proof.Machine

/-- The reset state with `bytes` at address `pc0` and `pc` there. -/
def placed (pc0 : Byte) (bytes : List Byte) : State :=
  { State.reset with pc := pc0, mem := Memory.load [] pc0.toNat bytes }

/-- `x[r]` set before the step. -/
def withReg (s : State) (r : RegIndex) (v : Byte) : State := s.setReg r v

/-- The state after one step, if there is one. -/
def after (s : State) : Option State :=
  match step s with
  | .next t => some t
  | .fault _ => none
  | .refused _ => none

/-- One field of the state after one step. -/
def see {α : Type} (f : State → α) (s : State) : Option α := (after s).map f

/-! ## Well-formedness: each check refuses an ill-formed instruction -/

theorem test_wellFormed_refuses_operand_a : (Instr.ldi 8 0).wellFormed = false := by decide
theorem test_wellFormed_refuses_operand_b : (Instr.add 0 8).wellFormed = false := by decide
theorem test_wellFormed_refuses_high_bits : (Instr.jeq 0xC8).wellFormed = false := by decide
theorem test_wellFormed_accepts_immediate : (Instr.ldi 7 0xFF).wellFormed = true := by decide

/-! ## Decoding: a word of every instruction, written out from R53 -/

theorem test_decode_ldi : decode [0b10000010, 0b00000111, 0b11111110] = .ok (.ldi 7 254) := by rfl
theorem test_decode_prn : decode [0b01000111, 0b00000101] = .ok (.prn 5) := by rfl
theorem test_decode_hlt : decode [0b00000001] = .ok .hlt := by rfl
theorem test_decode_mul : decode [0b10100010, 0b00000001, 0b00000010] = .ok (.mul 1 2) := by rfl
theorem test_decode_push : decode [0b01000101, 0b00000110] = .ok (.push 6) := by rfl
theorem test_decode_pop : decode [0b01000110, 0b00000100] = .ok (.pop 4) := by rfl
theorem test_decode_call : decode [0b01010000, 0b00000011] = .ok (.call 3) := by rfl
theorem test_decode_ret : decode [0b00010001] = .ok .ret := by rfl
theorem test_decode_add : decode [0b10100000, 0b00000010, 0b00000001] = .ok (.add 2 1) := by rfl
theorem test_decode_cmp : decode [0b10100111, 0b00000100, 0b00000101] = .ok (.cmp 4 5) := by rfl
theorem test_decode_jmp : decode [0b01010100, 0b00000010] = .ok (.jmp 2) := by rfl
theorem test_decode_jeq : decode [0b01010101, 0b00000000] = .ok (.jeq 0) := by rfl
theorem test_decode_jne : decode [0b01010110, 0b00000001] = .ok (.jne 1) := by rfl
theorem test_decode_register_byte_unmasked : decode [0x55, 0xC8] = .ok (.jeq 200) := by rfl
theorem test_decode_zero_is_illegal : decode [0x00] = .error (.illegalOpcode 0x00) := by rfl
theorem test_decode_neighbour_is_illegal : decode [0x83, 9, 9] = .error (.illegalOpcode 0x83) := by rfl
theorem test_decode_truncated : decode [0x82, 0x01] = .error (.missingByte 2) := by rfl
theorem test_decode_table_word : decodeTableWord 24 0x0801A0 = some (.add 1 8) := by decide
theorem test_decode_short_table_word : decodeTableWord 8 0xFFFFA7 = some (.cmp 0 0) := by decide
/-- R54 (a): bits 7:6 of the opcode are the operand count. -/
theorem test_opcode_high_bits : [Instr.hlt, .prn 0, .ldi 0 0, .ret, .call 0, .cmp 0 0].all
    (fun i => i.opcode.toNat / 64 == i.length - 1) = true := by decide
/-- R61, the source's own line. -/
theorem test_assembly : [Instr.ldi 0 8, .ldi 1 9, .mul 0 1, .prn 0, .hlt].map Instr.assembly =
    [some "LDI R0,8", some "LDI R1,9", some "MUL R0,R1", some "PRN R0", some "HLT"] := by decide

/-! ## One step, vectors of 95_test_vectors.md -/

/-- A1. -/
theorem test_add_wraps : see (fun t => (t.reg 0, t.pc, t.fl))
    (withReg (withReg (placed 6 [0xA0, 0, 1]) 0 200) 1 100) = some (44, 9, 0) := by decide
/-- A10. -/
theorem test_add_commits_then_faults : see (fun t => (t.reg 0, t.pc, t.status))
    (withReg (withReg (placed 253 [0xA0, 0, 1]) 0 1) 1 2) =
      some (3, 253, .faulted (.addressErrorMem 256 253)) := by decide
/-- M6. -/
theorem test_mul_keeps_low_byte : see (fun t => (t.reg 0, t.reg 1, t.pc))
    (withReg (withReg (placed 6 [0xA2, 0, 1]) 0 100) 1 100) = some (16, 100, 9) := by decide
/-- M7. -/
theorem test_mul_checks_operand_b : see (fun t => (t.reg 1, t.status))
    (withReg (placed 6 [0xA2, 1, 8]) 1 3) = some (3, .faulted (.addressErrorReg 8 6)) := by decide
/-- C2. -/
theorem test_cmp_unsigned_greater : see (fun t => (t.fl, t.pc))
    (withReg (withReg (placed 6 [0xA7, 0, 1]) 0 200) 1 100) = some (0x02, 9) := by decide
/-- C7. -/
theorem test_cmp_operand_order : see (fun t => (t.fl, t.reg 0))
    (withReg (placed 6 [0xA7, 1, 0]) 0 1) = some (0x04, 1) := by decide
/-- K4. -/
theorem test_push_sp : see (fun t => (t.sp, t.mem.read 254, t.pc)) (placed 6 [0x45, 7]) = some (254, 254, 8) := by
  decide
/-- K6. -/
theorem test_push_over_itself : see (fun t => (t.sp, t.mem.read 254, t.pc, t.status))
    (withReg (placed 254 [0x45, 0]) 0 9) = some (254, 9, 254, .faulted (.addressErrorMem 256 254)) := by decide
/-- K9. -/
theorem test_pop_sp : see (fun t => (t.sp, t.pc))
    (withReg ((placed 6 [0x46, 7]).setMem (Memory.load (Memory.load [] 6 [0x46, 7]) 254 [32])) 7 254) =
      some (33, 8) := by decide
/-- K12. -/
theorem test_pop_reads_code : see (fun t => (t.reg 0, t.sp, t.mem.read 0))
    (withReg ((placed 6 [0x46, 0]).setMem (Memory.load (Memory.load [] 6 [0x46, 0]) 0 [0x82])) 7 0) =
      some (130, 1, 0x82) := by decide
/-- K16. -/
theorem test_call_sp : see (fun t => (t.sp, t.mem.read 254, t.pc)) (placed 8 [0x50, 7]) = some (254, 10, 254) := by
  decide
/-- K15. -/
theorem test_call_return_address_256 : see (fun t => (t.sp, t.pc, t.status))
    (withReg (placed 254 [0x50, 1]) 1 17) = some (255, 254, .faulted (.addressErrorMem 256 254)) := by decide
/-- K21. -/
theorem test_ret_at_last_address : see (fun t => (t.sp, t.pc))
    (withReg ((placed 255 [0x11]).setMem (Memory.load (Memory.load [] 255 [0x11]) 128 [51])) 7 128) =
      some (129, 51) := by decide
/-- K20. -/
theorem test_ret_at_reset : see (fun t => (t.sp, t.pc, t.status)) (placed 20 [0x11]) =
    some (255, 20, .faulted (.addressErrorMem 256 20)) := by decide
/-- B3. -/
theorem test_jmp_at_end : see (fun t => (t.pc, t.status)) (placed 254 [0x54, 0]) = some (0, .running) := by decide
/-- B5. -/
theorem test_jmp_operand_beyond_memory : see (fun t => (t.pc, t.status)) (placed 255 [0x54]) =
    some (255, .faulted (.addressErrorMem 256 255)) := by decide
/-- B6. -/
theorem test_jeq_taken : see (fun t => (t.pc, t.fl))
    ((withReg (placed 3 [0x55, 0]) 0 7).setFl 0x01) = some (7, 0x01) := by decide
/-- B12. -/
theorem test_jeq_checks_register_not_taken : see State.status (placed 3 [0x55, 0xC8]) =
    some (.faulted (.addressErrorReg 200 3)) := by decide
/-- B16. -/
theorem test_jne_taken_at_reset_flags : see State.pc (withReg (placed 20 [0x56, 3]) 3 12) = some 12 := by decide
/-- B15. -/
theorem test_jne_not_taken : see State.pc ((withReg (placed 20 [0x56, 3]) 3 12).setFl 0x01) = some 22 := by decide
/-- L2. -/
theorem test_ldi_sp : see (fun t => (t.sp, t.pc)) (placed 0 [0x82, 7, 0x80]) = some (128, 3) := by decide
/-- L5. -/
theorem test_ldi_commits_then_faults : see (fun t => (t.reg 1, t.pc, t.status)) (placed 253 [0x82, 1, 7]) =
    some (7, 253, .faulted (.addressErrorMem 256 253)) := by decide
/-- N2. -/
theorem test_prn_sp : see (fun t => (t.out, t.pc)) (placed 9 [0x47, 7]) = some ([255], 11) := by decide
/-- N5. -/
theorem test_prn_commits_then_faults : see (fun t => (t.out, t.status)) (withReg (placed 254 [0x47, 0]) 0 254) =
    some ([254], .faulted (.addressErrorMem 256 254)) := by decide
/-- H2. -/
theorem test_hlt_at_last_address : see (fun t => (t.pc, t.status)) (placed 255 [0x01]) = some (255, .halted) := by
  decide
/-- X3. -/
theorem test_decode_error_not_address_error : see State.status (placed 255 [0xC0]) =
    some (.faulted (.decodeError 0xC0 255)) := by decide
/-- P6 (a), the empty image. -/
theorem test_reset_meets_zero_byte : see State.status State.reset = some (.faulted (.decodeError 0x00 0)) := by decide
/-- R21: after the halt no step. -/
theorem test_no_step_after_halt : after (State.reset.setStatus .halted) = none := by decide
theorem test_fetch_word : see (fun t => (t.reg 3, t.pc)) (State.reset.withFetchWord 24 0xFF0382) = some (255, 3) := by
  decide

/-! ## Witnesses: the hypotheses of each obligation are met together, clause by clause, at a boundary -/

theorem witness_IllegalOpcodeIsDecodeError :
    (0x00 : Byte) ∉ ([0x82, 0x47, 0x01, 0xA2, 0x45, 0x46, 0x50, 0x11, 0xA0, 0xA7, 0x54, 0x55, 0x56] : List Byte) ∧
    State.reset.status = .running ∧ State.reset.mem.read State.reset.pc = 0x00 := by decide
theorem witness_EncodeOfDecode : decode [0x47, 0xFF, 0x00] = .ok (.prn 0xFF) := by rfl
theorem witness_LengthFromOpcodeAlone_lengths :
    decode (0x47 :: [0]) = .ok (.prn 0) ∧ decode (0x47 :: [9, 9]) = .ok (.prn 9) := ⟨rfl, rfl⟩
theorem witness_LengthFromOpcodeAlone_illegal : decode (0xFF :: [1]) = .error (.illegalOpcode 0xFF) := by rfl
theorem witness_LengthFromOpcodeAlone_states :
    State.reset.mem = (State.reset.setFl 4).mem ∧ State.reset.pc = (State.reset.setFl 4).pc ∧
      State.reset ≠ State.reset.setFl 4 := by decide
theorem witness_TruncatedInstructionRejected : 2 < (Instr.ldi 0 0).length ∧ 0 < Instr.hlt.length := by decide
theorem witness_StepRunsDecodedInstruction : (placed 253 [0x82, 9, 7]).status = .running ∧
    decode (codeBytes (placed 253 [0x82, 9, 7])) = .ok (.ldi 9 7) := ⟨rfl, rfl⟩
theorem witness_StepRunsDecodedInstruction_bytes :
    (placed 253 []).pc.toNat + 2 ≤ 255 ∧ 255 < (placed 254 []).pc.toNat + 2 := by decide
theorem witness_OperandFetchPastEndFaults_b : (placed 254 [0x82, 1]).status = .running ∧
    (placed 254 [0x82, 1]).mem.read 254 = (Instr.ldi 0 0).opcode ∧
    256 < (placed 254 [0x82, 1]).pc.toNat + (Instr.ldi 0 0).length := by decide
theorem witness_OperandFetchPastEndFaults_a : (placed 255 [0x54]).status = .running ∧
    (placed 255 [0x54]).mem.read 255 = (Instr.jmp 0).opcode ∧
    256 < (placed 255 [0x54]).pc.toNat + (Instr.jmp 0).length := by decide
theorem witness_RunningStepAnswersNext : State.reset.status = .running := by rfl
theorem witness_NoStepUnlessRunning : (State.reset.setStatus .halted).status = .halted ∧
    (State.reset.setStatus (.faulted (.decodeError 0 0))).status = .faulted (.decodeError 0 0) := ⟨rfl, rfl⟩
theorem witness_EndedRunKeepsItsState : (runFor 1 (placed 0 [0x01])).status.outcome = some .success ∧
    (runFor 1 State.reset).status.outcome = some (.failure (.decodeError 0 0)) := by decide
theorem witness_MemReadReturnsTheCell : ((-1 : Int) < 0) ∧ (255 < (256 : Int)) ∧
    (0 : Int) = ((0 : Byte).toNat : Int) ∧ (255 : Int) = ((255 : Byte).toNat : Int) := by decide
theorem witness_MemWriteChangesOneCell : ((-1 : Int) < 0) ∧ (255 < (256 : Int)) ∧
    (255 : Int) = ((255 : Byte).toNat : Int) ∧ (254 : Byte) ≠ 255 := by decide
/-- Two writes in either order leave the same canonical memory, read alike everywhere. -/
theorem witness_CanonicalMemoriesReadAlikeAreEqual :
    (Memory.write (Memory.write [] 255 1) 0 2).wf = true ∧ (Memory.write (Memory.write [] 0 2) 255 1).wf = true ∧
      ∀ a : Byte, (Memory.write (Memory.write [] 255 1) 0 2).read a =
        (Memory.write (Memory.write [] 0 2) 255 1).read a := by
  refine ⟨by decide, by decide, fun _ => rfl⟩
theorem witness_RegisterReadsBackWrite : (6 : RegIndex) ≠ 7 := by decide
theorem witness_RegisterByteAboveSevenFaults : firstBadRegister (.add 7 8) = some 8 ∧
    firstBadRegister (.add 9 8) = some 9 ∧ firstBadRegister (.jne 0xFF) = some 0xFF := by decide
theorem witness_RegisterByteAboveSevenFaults_only : State.reset.status = .running ∧
    exec (.prn 8) State.reset = .next (State.reset.setStatus (.faulted (.addressErrorReg 8 0))) := ⟨rfl, rfl⟩
theorem witness_AddWritesWrappedSum : (7 : Byte).toNat = (7 : RegIndex).val ∧ (0 : Byte).toNat = (0 : RegIndex).val ∧
    (placed 252 []).pc.toNat + 3 ≤ 255 ∧ 255 < (placed 253 []).pc.toNat + 3 := by decide
theorem witness_MulWritesWrappedProduct : (0 : Byte).toNat = (0 : RegIndex).val ∧
    (7 : Byte).toNat = (7 : RegIndex).val ∧
    (placed 252 []).pc.toNat + 3 ≤ 255 ∧ 255 < (placed 253 []).pc.toNat + 3 := by decide
theorem witness_CmpWritesOneFlag_equal : (State.reset.reg 0).toNat = (State.reset.reg 6).toNat ∧
    (placed 252 []).pc.toNat + 3 ≤ 255 ∧ 255 < (placed 253 []).pc.toNat + 3 := by decide
/-- Less for operands 0 and 7, Greater for operands 7 and 0. -/
theorem witness_CmpWritesOneFlag_order : (State.reset.reg 0).toNat < (State.reset.reg 7).toNat ∧
    (0 : Byte).toNat = (0 : RegIndex).val ∧ (7 : Byte).toNat = (7 : RegIndex).val := by decide
theorem witness_PushStoresBelowStackPointer : (withReg State.reset 7 0).sp.toNat = 0 ∧
    (withReg State.reset 7 1).sp.toNat = (0 : Byte).toNat + 1 ∧ (7 : Byte).toNat = (7 : RegIndex).val ∧
    (placed 253 []).pc.toNat + 2 ≤ 255 ∧ 255 < (placed 254 []).pc.toNat + 2 := by decide
theorem witness_PopLoadsThenRaisesStackPointer : State.reset.sp.toNat = 255 ∧
    (255 : Byte).toNat = (withReg State.reset 7 254).sp.toNat + 1 ∧ (0 : Byte).toNat = (0 : RegIndex).val ∧
    (placed 253 []).pc.toNat + 2 ≤ 255 ∧ 255 < (placed 254 []).pc.toNat + 2 := by decide
theorem witness_PopLoadsThenRaisesStackPointer_sp :
    (placed 255 [0xFF]).mem.read (placed 255 [0xFF]).sp = 255 ∧
    (1 : Byte).toNat = (State.reset.mem.read State.reset.sp).toNat + 1 := by decide
theorem witness_CallPushesReturnAddressAndJumps : 255 < (placed 254 []).pc.toNat + 2 ∧
    (placed 253 []).pc.toNat + 2 ≤ 255 ∧ (withReg (placed 253 []) 7 0).sp.toNat = 0 ∧
    (placed 253 []).sp.toNat = (254 : Byte).toNat + 1 ∧ (7 : Byte).toNat = (7 : RegIndex).val := by decide
theorem witness_RetPopsProgramCounter : State.reset.sp.toNat = 255 ∧
    (255 : Byte).toNat = (withReg State.reset 7 254).sp.toNat + 1 := by decide
theorem witness_JmpGoesToRegister : 7 < (8 : Byte).toNat ∧ (7 : Byte).toNat = (7 : RegIndex).val ∧
    (placed 255 []).reg 7 = (placed 255 []).pc := by decide
theorem witness_JeqJumpsOnEqual : (State.reset.setFl 0x01).fl.getLsbD 0 = true ∧
    (placed 253 []).fl.getLsbD 0 = false ∧ (placed 253 []).pc.toNat + 2 ≤ 255 ∧
    (placed 254 []).fl.getLsbD 0 = false ∧ 255 < (placed 254 []).pc.toNat + 2 := by decide
theorem witness_JneJumpsOnNotEqual : State.reset.fl.getLsbD 0 = false ∧
    ((placed 253 []).setFl 1).fl.getLsbD 0 = true ∧ ((placed 253 []).setFl 1).pc.toNat + 2 ≤ 255 ∧
    255 < ((placed 254 []).setFl 1).pc.toNat + 2 := by decide
theorem witness_LdiLoadsImmediate : (7 : Byte).toNat = (7 : RegIndex).val ∧ (placed 252 []).pc.toNat + 3 ≤ 255 ∧
    255 < (placed 253 []).pc.toNat + 3 := by decide
theorem witness_PrnAppendsRegister : (7 : Byte).toNat = (7 : RegIndex).val ∧ (placed 253 []).pc.toNat + 2 ≤ 255 ∧
    255 < (placed 254 []).pc.toNat + 2 := by decide
theorem witness_HltHalts : State.reset.status = .running ∧
    exec .hlt State.reset = .next (State.reset.setStatus .halted) := ⟨rfl, rfl⟩
theorem witness_RegistersChangeOnlyByTable :
    exec (.ldi 7 1) State.reset = .next ((State.reset.setReg 7 1).setPc 3) ∧ mayWriteReg (.ldi 7 1) 6 = false :=
  ⟨rfl, rfl⟩
theorem witness_MemoryUnchangedWithoutStore : (∀ a, Instr.hlt ≠ .push a) ∧ (∀ a, Instr.hlt ≠ .call a) ∧
    exec .hlt State.reset = .next (State.reset.setStatus .halted) := by
  refine ⟨fun _ h => ?_, fun _ h => ?_, rfl⟩ <;> cases h
theorem witness_PushAndCallStoreOnlyAtSpDown :
    exec (.push 0) State.reset = .next ((State.reset.setSp 254).setPc 2) ∧ spDown State.reset = .ok 254 ∧
    (254 : Byte) ≠ 255 := ⟨rfl, rfl, by decide⟩
theorem witness_PushAndCallStoreOnlyAtSpDown_fault :
    exec (.call 0) (State.reset.setSp 0) =
      .next ((State.reset.setSp 0).setStatus (.faulted (.addressErrorMem (-1) 0))) ∧
    spDown (State.reset.setSp 0) = .error (.addressErrorMem (-1) 0) := ⟨rfl, rfl⟩
theorem witness_FlagsFlow_others : exec (.prn 0) State.reset = .next ((State.reset.emit 0).setPc 2) ∧
    (∀ a b, Instr.prn 0 ≠ .cmp a b) ∧ (∀ a, Instr.prn 0 ≠ .jeq a) ∧ (∀ a, Instr.prn 0 ≠ .jne a) := by
  refine ⟨rfl, fun _ _ h => ?_, fun _ h => ?_, fun _ h => ?_⟩ <;> cases h
theorem witness_FlagsFlow_branches : exec (.jne 0) (State.reset.setFl 0x02) = .next (State.reset.setFl 0x02) ∧
    (0x04 : Byte).getLsbD 0 = (State.reset.setFl 0x02).fl.getLsbD 0 := ⟨rfl, by decide⟩
/-- The flags differ in bit 0: taken under one, not taken under the other, registers, memory and output alike. -/
theorem witness_FlagsFlow_branches_bit : exec (.jeq 7) State.reset = .next (State.reset.setPc 2) ∧
    exec (.jeq 7) (State.reset.setFl 0x01) = .next ((State.reset.setFl 0x01).setPc 255) := ⟨rfl, rfl⟩
theorem witness_FlagsFlow_cmp_fault : 7 < (8 : Byte).toNat ∧
    exec (.cmp 0 8) State.reset = .next (State.reset.setStatus (.faulted (.addressErrorReg 8 0))) := ⟨by decide, rfl⟩
theorem witness_FlagsFlow_cmp : (7 : Byte).toNat ≤ 7 ∧ (0 : Byte).toNat ≤ 7 := by decide
theorem witness_OutputOnlyGrowsByPrn : exec (.prn 7) State.reset = .next ((State.reset.emit 255).setPc 2) ∧
    exec (.prn 8) State.reset = .next (State.reset.setStatus (.faulted (.addressErrorReg 8 0))) := ⟨rfl, rfl⟩
/-- A10, the exceptional fault: the sum is written at 253 as it is at 0. -/
theorem witness_FaultsArePrecise_committed :
    (withReg (withReg (placed 253 [0xA0, 0, 1]) 0 1) 1 2).status = .running ∧
    step (withReg (withReg (placed 253 [0xA0, 0, 1]) 0 1) 1 2) =
      .next ((withReg (withReg (placed 253 [0xA0, 0, 1]) 0 3) 1 2).setStatus
        (.faulted (.addressErrorMem 256 253))) ∧
    exec (.add 0 1) ((withReg (withReg (placed 253 [0xA0, 0, 1]) 0 1) 1 2).setPc 0) =
      .next ((withReg (withReg (placed 253 [0xA0, 0, 1]) 0 3) 1 2).setPc 3) ∧
    withReg (withReg (placed 253 [0xA0, 0, 1]) 0 3) 1 2 ≠ withReg (withReg (placed 253 [0xA0, 0, 1]) 0 1) 1 2 :=
  ⟨rfl, rfl, rfl, by decide⟩
theorem witness_FaultsArePrecise : State.reset.status = .running ∧
    step State.reset = .next (State.reset.setStatus (.faulted (.decodeError 0 0))) := ⟨rfl, rfl⟩
theorem witness_OnlyHltByteHalts : (placed 0 [1]).status = .running ∧
    step (placed 0 [1]) = .next ((placed 0 [1]).setStatus .halted) := ⟨rfl, rfl⟩
theorem witness_SequentialAdvanceNeverWraps : (placed 253 [0x47, 0]).status = .running ∧
    decode (codeBytes (placed 253 [0x47, 0])) = .ok (.prn 0) ∧
    step (placed 253 [0x47, 0]) = .next (((placed 253 [0x47, 0]).emit 0).setPc 255) ∧
    straightLine (.prn 0) = true ∧ (((placed 253 [0x47, 0]).emit 0).setPc 255).status = .running :=
  ⟨rfl, rfl, rfl, rfl, rfl⟩
theorem witness_StepKeepsInvariant : (placed 0 [1]).Inv ∧
    step (placed 0 [1]) = .next ((placed 0 [1]).setStatus .halted) := ⟨⟨rfl, rfl, rfl⟩, rfl⟩
theorem witness_FlagsNeverClearAfterCmp :
    step (State.reset.setFl 4) = .next ((State.reset.setFl 4).setStatus (.faulted (.decodeError 0 0))) ∧
    (State.reset.setFl 4).fl = 0x04 := ⟨rfl, rfl⟩
theorem witness_InternalDispatchErrorUnreachable : State.reset.status = .running ∧
    step State.reset = .next (State.reset.setStatus (.faulted (.decodeError 0 0))) := ⟨rfl, rfl⟩
theorem witness_ResetValues : (6 : RegIndex) ≠ 7 := by decide
theorem witness_LaunchPlacesImage : (List.replicate 256 (1 : Byte)).length ≤ 256 ∧
    256 < (List.replicate 257 (1 : Byte)).length := by rw [List.length_replicate, List.length_replicate]; decide
theorem witness_FirstInstructionAtAddressZero :
    State.launch [1] = .ok { State.reset with mem := Memory.load [] 0 [1] } ∧
    decode ([1] ++ List.replicate 3 0x00) = .ok .hlt := ⟨rfl, rfl⟩
theorem witness_PushThenPopRoundTrips : (0 : Byte).toNat = (0 : RegIndex).val ∧
    (6 : Byte).toNat = (6 : RegIndex).val ∧ (0 : RegIndex) ≠ 7 ∧ (6 : RegIndex) ≠ 7 ∧ State.reset.sp.toNat = (254 : Byte).toNat + 1 ∧
    (placed 251 []).pc.toNat + 4 ≤ 255 := by decide
/-- The state the CALL leaves is itself one from which the RET starts. -/
theorem witness_RetReturnsAfterCall : (0 : Byte).toNat = (0 : RegIndex).val ∧ (placed 253 []).pc.toNat + 2 ≤ 255 ∧ (placed 253 []).sp.toNat ≠ 0 ∧
    exec (.call 0) (placed 253 []) =
      .next ((((placed 253 []).setSp 254).setMem (Memory.write [] 254 255)).setPc 0) := ⟨rfl, by decide, by decide, rfl⟩
theorem witness_BranchesFollowComparison : (0 : Byte).toNat = (0 : RegIndex).val ∧
    (1 : Byte).toNat = (1 : RegIndex).val ∧ (7 : Byte).toNat = (7 : RegIndex).val ∧ (placed 250 []).pc.toNat + 5 ≤ 255 ∧
    (placed 250 []).reg 0 = (placed 250 []).reg 1 ∧ (placed 250 []).reg 0 ≠ (placed 250 []).reg 7 := by decide
theorem witness_LdiThenPrnOutputsValue : (7 : Byte).toNat = (7 : RegIndex).val ∧
    State.launch (encode (.ldi 7 0xFF) ++ encode (.prn 7)) =
      .ok { State.reset with mem := Memory.load [] 0 [0x82, 7, 0xFF, 0x47, 7] } := ⟨rfl, rfl⟩
theorem witness_PushedByteIsFetchedNext :
    (withReg (withReg (placed 6 [0x45, 0]) 0 1) 7 9).status = .running ∧ (0 : Byte).toNat = (0 : RegIndex).val ∧
    (0 : RegIndex) ≠ 7 ∧ (withReg (withReg (placed 6 [0x45, 0]) 0 1) 7 9).pc.toNat + 2 ≤ 255 ∧
    decode (codeBytes (withReg (withReg (placed 6 [0x45, 0]) 0 1) 7 9)) = .ok (.push 0) ∧
    (withReg (withReg (placed 6 [0x45, 0]) 0 1) 7 9).sp.toNat =
      (withReg (withReg (placed 6 [0x45, 0]) 0 1) 7 9).pc.toNat + 3 ∧
    (withReg (withReg (placed 6 [0x45, 0]) 0 1) 7 9).reg 0 = 0x01 :=
  ⟨rfl, rfl, by decide, by decide, rfl, by decide, by decide⟩
theorem witness_JumpToSelfRunsForever : (placed 0 [0x54, 0]).status = .running ∧
    (0 : Byte).toNat = (0 : RegIndex).val ∧ decode (codeBytes (placed 0 [0x54, 0])) = .ok (.jmp 0) ∧
    (placed 0 [0x54, 0]).reg 0 = (placed 0 [0x54, 0]).pc := ⟨rfl, rfl, rfl, rfl⟩

end Sys2Proof.Tests
end

section
/-! Proofs of the memory primitives of spec R31 and R32, from the laws about `memRead`, `memWrite` and
`Memory.write`. -/

namespace Sys2Proof.Machine

/-- Settles O13: outside the range the write faults, inside it the next state is `s` with `write` on its memory. -/
theorem memWriteChangesOneCell : Obligations.MemWriteChangesOneCell := by
  intro s addr v
  constructor
  · intro outside
    exact memWrite_error outside v
  · rintro a rfl
    refine ⟨s.setMem (s.mem.write a v), memWrite_byte s a v, ?cell, ?others, rfl, rfl, rfl, rfl, rfl⟩
    case cell => exact Memory.read_write_same s.mem a v
    case others =>
      intro b hb
      exact Memory.read_write_ne hb s.mem v

/-- Settles O12: outside the range the read faults, inside it the address is a byte's value and its cell is read. -/
theorem memReadReturnsTheCell : Obligations.MemReadReturnsTheCell := by
  intro s addr
  constructor
  · exact memRead_error
  · rintro a rfl
    exact memRead_byte s a

end Sys2Proof.Machine
end

section
/-! Proofs about the encoding, spec R53, R55 and R56: which bytes are opcodes, what the decoder and a running machine do
with a byte that is none, and that the opcode byte alone fixes the length. -/

namespace Sys2Proof

/-! ## The opcode bytes (spec R53, R56) -/

/-- The opcode bytes of table R53, in its order. -/
def legalOpcodes : List Byte :=
  [0x82, 0x47, 0x01, 0xA2, 0x45, 0x46, 0x50, 0x11, 0xA0, 0xA7, 0x54, 0x55, 0x56]

theorem opcodeRow_isSome_of_legal : ∀ op ∈ legalOpcodes, (opcodeRow op).isSome := by decide

theorem opcodeRow_eq_none_of_not_legal {op : Byte} (h : op ∉ legalOpcodes) : opcodeRow op = none := by
  simp only [legalOpcodes, List.mem_cons, List.not_mem_nil, or_false, not_or, BitVec.ofNat_eq_ofNat] at h
  simp [opcodeRow, h]

/-! ## What the decoder answers (spec R55, R58) -/

/-- The decoder names the opcode byte as illegal exactly when the table has no row for it, whatever follows. -/
theorem decode_cons_eq_illegalOpcode_iff {op : Byte} {bs : List Byte} :
    decode (op :: bs) = .error (.illegalOpcode op) ↔ opcodeRow op = none := by
  rw [decode_cons]
  cases opcodeRow op with
  | none => simp
  | some row => cases row <;> rcases bs with _ | ⟨a, _ | ⟨b, bs⟩⟩ <;> simp

theorem opcode_of_encode_eq_cons {i : Instr} {op : Byte} {bs : List Byte} (h : encode i = op :: bs) :
    i.opcode = op :=
  List.head_eq_of_cons_eq h

/-- With two bytes behind it, an opcode of the table always decodes, and to an instruction with that opcode. -/
theorem decode_ok_of_opcodeRow_isSome {op : Byte} (h : (opcodeRow op).isSome) (a b : Byte) (rest : List Byte) :
    ∃ i, decode (op :: a :: b :: rest) = .ok i ∧ i.opcode = op := by
  have hrow := opcodeRow_rowFor op
  rw [decode_cons]
  cases hop : opcodeRow op with
  | none => simp [hop] at h
  | some row =>
    rw [hop] at hrow
    cases row with
    | f0 i => exact ⟨i, rfl, opcode_of_encode_eq_cons hrow.1⟩
    | f1 make => exact ⟨make a, rfl, opcode_of_encode_eq_cons (hrow a).1⟩
    | f2 make => exact ⟨make a b, rfl, opcode_of_encode_eq_cons (hrow a b).1⟩

/-- An instruction comes from the row of its opcode byte, which made it of the operand bytes it asks for. -/
theorem decode_cons_ok_cases {op : Byte} {bs : List Byte} {i : Instr} (h : decode (op :: bs) = .ok i) :
    opcodeRow op = some (.f0 i) ∨
      (∃ make a rest, opcodeRow op = some (.f1 make) ∧ bs = a :: rest ∧ i = make a) ∨
      ∃ make a b rest, opcodeRow op = some (.f2 make) ∧ bs = a :: b :: rest ∧ i = make a b := by
  rw [decode_cons] at h
  cases hop : opcodeRow op with
  | none => simp [hop] at h
  | some row =>
    cases row with
    | f0 j => simp_all
    | f1 make => rcases bs with _ | ⟨a, rest⟩ <;> simp_all
    | f2 make => rcases bs with _ | ⟨a, _ | ⟨b, rest⟩⟩ <;> simp_all

/-! ## The length (spec R50, R55) -/

/-- The length that a format of R50 gives every instruction of it. -/
def Format.length : Format → Nat
  | .f0 _ => 1
  | .f1 _ => 2
  | .f2 _ => 3

/-- The length of a decoded instruction is that of its opcode's row. -/
theorem length_of_decode_cons_ok {op : Byte} {bs : List Byte} {i : Instr} (h : decode (op :: bs) = .ok i) :
    (opcodeRow op).map Format.length = some i.length := by
  have hrow := opcodeRow_rowFor op
  rcases decode_cons_ok_cases h with hop | ⟨make, a, _, hop, _, rfl⟩ | ⟨make, a, b, _, hop, _, rfl⟩ <;>
    rw [hop] at hrow ⊢
  · exact congrArg some hrow.2.symm
  · exact congrArg some (hrow a).2.symm
  · exact congrArg some (hrow a b).2.symm

theorem Instr.length_eq (i : Instr) : i.length = 1 + i.operandBytes.length := by
  cases i <;> rfl

theorem Instr.length_operandBytes_le (i : Instr) : i.operandBytes.length ≤ 2 := by
  cases i <;> simp [Instr.operandBytes]

theorem length_encode (i : Instr) : (encode i).length = i.length := by
  rw [encode, List.length_cons, Instr.length_eq, Nat.add_comm]

namespace Machine

/-! ## Fetch and step -/

/-- The byte at the program counter is always there: a byte is an address (spec R15, R30). -/
theorem codeBytes_eq_cons (s : State) : ∃ bs, codeBytes s = s.mem.read s.pc :: bs := by
  have hpc : s.pc.toNat < Config.memSize := s.pc.isLt
  exact ⟨bytesFrom s.mem (s.pc.toNat + 1) 2, by simp [codeBytes, bytesFrom, hpc]⟩

theorem fetch_congr {s t : State} (hmem : s.mem = t.mem) (hpc : s.pc = t.pc) : fetch s = fetch t := by
  simp only [fetch_eq_decode, codeBytes, hmem, hpc]

theorem fetch_of_opcodeRow_none {s : State} (h : opcodeRow (s.mem.read s.pc) = none) :
    fetch s = .error (.decodeError (s.mem.read s.pc) s.pc) := by
  obtain ⟨bs, hbs⟩ := codeBytes_eq_cons s
  rw [fetch_eq_decode, hbs, decode_cons_eq_illegalOpcode_iff.mpr h]
  rfl

/-- A fault of the fetch is taken like any other. -/
theorem step_of_fetch_error {s : State} {c : Cause} (hrun : s.status = .running) (h : fetch s = .error c) :
    step s = raise s c := by
  rw [step, whenRunning_running hrun, h, orRaise_error]

/-- Settles O2: the listed bytes are those the table has a row for; without a row the decoder refuses the byte and the
fetch faults on it before it reads an operand. -/
theorem illegalOpcodeIsDecodeError : Obligations.IllegalOpcodeIsDecodeError := by
  unfold Obligations.IllegalOpcodeIsDecodeError
  intro legal
  refine ⟨by decide, rfl, fun op hop => ?legal, fun op hop => ?illegal⟩
  case legal => exact decode_ok_of_opcodeRow_isSome (opcodeRow_isSome_of_legal op hop)
  case illegal =>
    have hrow : opcodeRow op = none := opcodeRow_eq_none_of_not_legal hop
    refine ⟨fun _ => decode_cons_eq_illegalOpcode_iff.mpr hrow, ?_⟩
    rintro s hrun rfl
    exact step_of_fetch_error hrun (fetch_of_opcodeRow_none hrow)

/-- Settles O5: the length is that of the opcode's row, and the fetch is the decoder on bytes that `mem` and `pc`
fix. -/
theorem lengthFromOpcodeAlone : Obligations.LengthFromOpcodeAlone := by
  refine ⟨fun i => ?bounds, fun op r q i j hi hj => ?same, fun op r q h => ?illegal, fun s t => fetch_congr⟩
  case bounds =>
    have hlen := i.length_eq
    have hop := i.length_operandBytes_le
    exact ⟨hlen, length_encode i, by omega, by omega⟩
  case same =>
    exact Option.some.inj ((length_of_decode_cons_ok hi).symm.trans (length_of_decode_cons_ok hj))
  case illegal =>
    exact decode_cons_eq_illegalOpcode_iff.mpr (decode_cons_eq_illegalOpcode_iff.mp h)

end Machine

end Sys2Proof
end

section
/-! Proofs about the jumps, spec R90 and R91: what `branchWhen` answers, by the register check and whether it is taken. -/

namespace Sys2Proof.Machine

/-- Writing the value `pc` already holds changes nothing: the jump to itself of R91. -/
theorem State.setPc_self (s : State) : s.setPc s.pc = s := rfl

/-- The register byte is checked first in every case, taken or not (spec R90, D11). -/
theorem branchWhen_register_fault {a : Byte} (h : 7 < a.toNat) (taken : Bool) (s : State) :
    branchWhen taken a s = raise s (.addressErrorReg a s.pc) := by
  rw [branchWhen, regIdx_error h, orRaise_error]

/-- A taken jump goes to the value of its register and asks no advance, so it cannot fault (spec R90). -/
theorem branchWhen_taken {a : Byte} {ra : RegIndex} (h : a.toNat = ra.val) (s : State) :
    branchWhen true a s = .next (s.setPc (s.reg ra)) := by
  rw [branchWhen, regIdx_ok h, orRaise_ok, if_pos rfl]

/-- JMP is the jump that is always taken (spec R91). -/
theorem exec_jmp (a : Byte) (s : State) : exec (.jmp a) s = branchWhen true a s := rfl

/-- Settles O24: JMP is a taken branch, which faults on its register byte or goes to the register's value. -/
theorem jmpGoesToRegister : Obligations.JmpGoesToRegister := by
  unfold Obligations.JmpGoesToRegister
  intro a s
  rw [exec_jmp]
  refine ⟨rfl, fun hbad => ?fault, fun ra ha => ⟨?target, fun hself => ?self⟩⟩
  case fault => exact branchWhen_register_fault hbad true s
  case target => exact branchWhen_taken ha s
  case self => rw [branchWhen_taken ha, hself, State.setPc_self]

end Sys2Proof.Machine
end

section
/-! Proofs about the launch, spec R140 to R142: what the launched machine reads from memory, and that its first step is
the instruction the image begins with. -/

namespace Sys2Proof

/-- The decoder looks at no byte after the third (spec R50). -/
theorem decode_congr {bs cs : List Byte} (h : ∀ k, k < 3 → bs[k]? = cs[k]?) : decode bs = decode cs := by
  have hmap : decode bs = (decode cs).mapError id := by
    refine decodeWith_map id (fun _ => rfl) fun k hk => ?_
    rw [byteOf, h k hk, ← byteOf]
    cases byteOf cs k <;> rfl
  rw [hmap]
  cases decode cs <;> rfl

/-- An image followed by enough zeros, byte by byte: what the image lacks is zero. -/
theorem getElem?_append_replicate_zero (image : List Byte) {n k : Nat} (hk : k < n) :
    (image ++ List.replicate n 0x00)[k]? = some (image[k]?.getD 0x00) := by
  by_cases h : k < image.length
  · rw [List.getElem?_append_left h, List.getElem?_eq_getElem h, Option.getD_some]
  · rw [List.getElem?_append_right (by omega), List.getElem?_replicate_of_lt (by omega),
      List.getElem?_eq_none (by omega), Option.getD_none]

namespace Machine

/-- A running machine executes what the decoder makes of the bytes at the program counter (spec R58). -/
theorem step_of_decode {s : State} {i : Instr} (hrun : s.status = .running) (h : decode (codeBytes s) = .ok i) :
    step s = exec i s := by
  have hfetch : fetch s = .ok i := by rw [fetch_eq_decode, h, Except.mapError]
  rw [step, whenRunning_running hrun, hfetch, orRaise_ok]

/-- A launch that succeeds is the reset state with the image loaded from address 0 (spec R140). -/
theorem eq_of_launch {image : List Byte} {s : State} (h : State.launch image = .ok s) :
    s = State.reset.setMem (Memory.load [] 0 image) := by
  unfold State.launch State.launchWith at h
  split at h
  · contradiction
  · exact (Except.ok.inj h).symm

/-- A loaded image stands from address 0 on, with zeros after it (spec R141). -/
theorem Memory.read_load_image (image : List Byte) (a : Byte) :
    (Memory.load [] 0 image).read a = image[a.toNat]?.getD 0x00 := by
  rw [Memory.read_load, if_pos (Nat.zero_le _), Nat.sub_zero]
  rfl

/-- The code window of a machine at address 0 of a loaded image is the image's head, filled up with zeros. -/
theorem codeBytes_getElem?_of_image (image : List Byte) (k : Nat) (hk : k < 3) :
    (codeBytes (State.reset.setMem (Memory.load [] 0 image)))[k]? = (image ++ List.replicate 3 0x00)[k]? := by
  have hpc : (State.reset.setMem (Memory.load [] 0 image)).pc.toNat = 0 := rfl
  rw [codeBytes, bytesFrom_getElem? _ _ 3 k hk, hpc, Nat.zero_add, if_pos (by omega), State.setMem_mem,
    Memory.read_load_image, BitVec.toNat_ofNat, Nat.mod_eq_of_lt (by omega), getElem?_append_replicate_zero image hk]

/-- Settles O44: the launch leaves `pc` at address 0, where the code window is the image's head, so the decoder gives
the first step what it gives on the image. -/
theorem firstInstructionAtAddressZero : Obligations.FirstInstructionAtAddressZero := by
  unfold Obligations.FirstInstructionAtAddressZero
  intro image s hlaunch
  obtain rfl := eq_of_launch hlaunch
  refine ⟨rfl, rfl, fun i hi => ?firstStep, ?firstByte⟩
  case firstStep =>
    have hcode := decode_congr (codeBytes_getElem?_of_image image)
    exact step_of_decode rfl (hcode.trans hi)
  case firstByte =>
    rintro b rest rfl
    exact Memory.read_load_image (b :: rest) 0

end Machine

end Sys2Proof
end

section
/-! Proofs about the encoder and the decoder, spec R50 and R53: each undoes the other, and a proper beginning of an
instruction is refused at its first missing byte. -/

namespace Sys2Proof

/-- The row of an instruction's own opcode byte, with the operand bytes it is made of, by format (spec R50). -/
theorem opcodeRow_opcode_cases (i : Instr) :
    (opcodeRow i.opcode = some (.f0 i) ∧ i.operandBytes = []) ∨
      (∃ make a, opcodeRow i.opcode = some (.f1 make) ∧ i.operandBytes = [a] ∧ i = make a) ∨
      ∃ make a b, opcodeRow i.opcode = some (.f2 make) ∧ i.operandBytes = [a, b] ∧ i = make a b := by
  cases i with
  | hlt | ret => exact .inl ⟨rfl, rfl⟩
  | prn a | push a | pop a | call a | jmp a | jeq a | jne a => exact .inr (.inl ⟨_, a, rfl, rfl, rfl⟩)
  | ldi a b | mul a b | add a b | cmp a b => exact .inr (.inr ⟨_, a, b, rfl, rfl, rfl⟩)

/-- Settles O3: the row of the opcode byte takes exactly the operand bytes that the encoder wrote after it. -/
theorem decodeOfEncode : Obligations.DecodeOfEncode := by
  unfold Obligations.DecodeOfEncode
  intro i rest
  rw [encode, List.cons_append, decode_cons]
  obtain ⟨hrow, hops⟩ | ⟨make, a, hrow, hops, hi⟩ | ⟨make, a, b, hrow, hops, hi⟩ := opcodeRow_opcode_cases i
  · rw [hrow]
  · rw [hrow, hops, hi]; rfl
  · rw [hrow, hops, hi]; rfl

/-- Settles O4: the row that made the instruction has its opcode byte first and its operand bytes after it. -/
theorem encodeOfDecode : Obligations.EncodeOfDecode := by
  unfold Obligations.EncodeOfDecode
  intro bs i h
  cases bs with
  | nil => cases h
  | cons op bs =>
    have hrow := opcodeRow_rowFor op
    obtain hop | ⟨make, a, rest, hop, rfl, rfl⟩ | ⟨make, a, b, rest, hop, rfl, rfl⟩ := decode_cons_ok_cases h
    all_goals rw [hop] at hrow
    · obtain ⟨henc, hlen⟩ := hrow
      simp [henc, hlen]
    · obtain ⟨henc, hlen⟩ := hrow a
      simp [henc, hlen]
    · obtain ⟨henc, hlen⟩ := hrow a b
      simp [henc, hlen]

theorem opcode_of_decode_cons_ok {op : Byte} {bs : List Byte} {i : Instr} (h : decode (op :: bs) = .ok i) :
    i.opcode = op := by
  obtain ⟨htake, _⟩ := encodeOfDecode _ _ h
  rw [i.length_eq, Nat.add_comm, List.take_succ_cons] at htake
  exact opcode_of_encode_eq_cons htake.symm

/-- The decoder refuses a list for its opcode byte, or for the byte right after its end, before a third byte. -/
theorem decode_error_cases {bs : List Byte} {r : Reject} (h : decode bs = .error r) :
    (∃ op rest, bs = op :: rest ∧ opcodeRow op = none ∧ r = .illegalOpcode op) ∨
      bs.length < 3 ∧ r = .missingByte bs.length := by
  cases bs with
  | nil => cases h; exact .inr ⟨by simp, rfl⟩
  | cons op bs =>
    rw [decode_cons] at h
    cases hop : opcodeRow op with
    | none =>
      simp only [hop] at h
      cases h
      exact .inl ⟨op, bs, rfl, hop, rfl⟩
    | some row =>
      right
      cases row with
      | f0 i => simp [hop] at h
      | f1 make => rcases bs with _ | ⟨a, bs⟩ <;> simp_all
      | f2 make => rcases bs with _ | ⟨a, _ | ⟨b, bs⟩⟩ <;> simp_all

/-- Settles O6: the row of the opcode byte asks for its operand bytes in order, and the first one cut off is missing. -/
theorem truncatedInstructionRejected : Obligations.TruncatedInstructionRejected := by
  unfold Obligations.TruncatedInstructionRejected
  intro i k hk
  cases k with
  | zero => rfl
  | succ k =>
    rw [i.length_eq] at hk
    rw [encode, List.take_succ_cons, decode_cons]
    obtain ⟨hrow, hops⟩ | ⟨make, a, hrow, hops, _⟩ | ⟨make, a, b, hrow, hops, _⟩ := opcodeRow_opcode_cases i
    all_goals rw [hops] at hk ⊢; rw [hrow]; simp only [List.length_cons, List.length_nil] at hk
    · omega
    · obtain rfl : k = 0 := by omega
      rfl
    · obtain rfl | rfl : k = 0 ∨ k = 1 := by omega
      · rfl
      · rfl

/-- Settles O1: each row is the encoding of its instruction, which decodes to it whatever follows. -/
theorem opcodeTableDecodes : Obligations.OpcodeTableDecodes := by
  unfold Obligations.OpcodeTableDecodes
  intro a b rest
  exact ⟨decodeOfEncode (.ldi a b) rest, decodeOfEncode (.prn a) rest, decodeOfEncode .hlt rest,
    decodeOfEncode (.mul a b) rest, decodeOfEncode (.push a) rest, decodeOfEncode (.pop a) rest,
    decodeOfEncode (.call a) rest, decodeOfEncode .ret rest, decodeOfEncode (.add a b) rest,
    decodeOfEncode (.cmp a b) rest, decodeOfEncode (.jmp a) rest, decodeOfEncode (.jeq a) rest,
    decodeOfEncode (.jne a) rest⟩

end Sys2Proof
end

section
/-! Proofs about one step, spec R21, R58 and R59: how the fetch can fault, the inversion lemma `step_cases`, and what
follows from it about faults, halts, the flags and the invariant. -/

namespace Sys2Proof

theorem map_length_opcodeRow_opcode (i : Instr) : (opcodeRow i.opcode).map Format.length = some i.length :=
  length_of_decode_cons_ok (decodeOfEncode i [])

theorem length_eq_of_opcode_eq {i j : Instr} (h : i.opcode = j.opcode) : i.length = j.length := by
  have hi := map_length_opcodeRow_opcode i
  rw [h, map_length_opcodeRow_opcode j] at hi
  exact (Option.some.inj hi).symm

theorem opcodeRow_opcode_ne_none (i : Instr) : opcodeRow i.opcode ≠ none := by
  intro h
  have hlen := map_length_opcodeRow_opcode i
  rw [h] at hlen
  cases hlen

namespace Machine

/-! ## The bytes at the program counter (spec R58) -/

theorem length_bytesFrom (m : Memory) {a n : Nat} (h : a ≤ 256) : (bytesFrom m a n).length = min n (256 - a) := by
  induction n generalizing a with
  | zero => simp [bytesFrom]
  | succ n ih =>
    by_cases ha : a < 256
    · simp only [bytesFrom, Config.memSize, ha, if_true, List.length_cons, ih (show a + 1 ≤ 256 by omega)]
      omega
    · simp only [bytesFrom, Config.memSize, ha, if_false, List.length_nil]
      omega

theorem length_codeBytes (s : State) : (codeBytes s).length = min 3 (256 - s.pc.toNat) :=
  length_bytesFrom s.mem (Nat.le_of_lt s.pc.isLt)

/-- A decoded instruction lies in memory with its last byte. -/
theorem pc_add_length_le_of_decode {s : State} {i : Instr} (h : decode (codeBytes s) = .ok i) :
    s.pc.toNat + i.length ≤ 256 := by
  have hpc := s.pc.isLt
  obtain ⟨_, hlen⟩ := encodeOfDecode _ _ h
  rw [length_codeBytes] at hlen
  omega

theorem opcode_of_decode_codeBytes {s : State} {i : Instr} (h : decode (codeBytes s) = .ok i) :
    i.opcode = s.mem.read s.pc := by
  obtain ⟨bs, hbs⟩ := codeBytes_eq_cons s
  rw [hbs] at h
  exact opcode_of_decode_cons_ok h

/-- The byte 0x01 alone makes HLT, whatever follows it (spec R53). -/
theorem decode_codeBytes_hlt_iff (s : State) : decode (codeBytes s) = .ok .hlt ↔ s.mem.read s.pc = 0x01 := by
  constructor
  · exact fun h => (opcode_of_decode_codeBytes h).symm
  · intro h
    obtain ⟨bs, hbs⟩ := codeBytes_eq_cons s
    rw [hbs, h]
    exact decodeOfEncode .hlt bs

/-- The two faults of the fetch: an opcode outside the table, or an operand address of exactly 256. -/
theorem fetch_error_cases {s : State} {c : Cause} (h : fetch s = .error c) :
    (opcodeRow (s.mem.read s.pc) = none ∧ c = .decodeError (s.mem.read s.pc) s.pc) ∨
      c = .addressErrorMem 256 s.pc := by
  rw [fetch_eq_decode] at h
  cases hd : decode (codeBytes s) with
  | ok i => simp [hd, Except.mapError] at h
  | error r =>
    obtain rfl : rejectCause s.pc r = c := by simpa [hd, Except.mapError] using h
    obtain ⟨op, rest, hcons, hop, rfl⟩ | ⟨hlen, rfl⟩ := decode_error_cases hd
    · obtain ⟨bs, hbs⟩ := codeBytes_eq_cons s
      obtain rfl : s.mem.read s.pc = op := List.head_eq_of_cons_eq (hbs.symm.trans hcons)
      exact .inl ⟨hop, rfl⟩
    · right
      rw [length_codeBytes] at hlen
      have hv : (s.pc.toNat : Int) + ((codeBytes s).length : Int) = 256 := by
        rw [length_codeBytes]
        have hpc := s.pc.isLt
        omega
      rw [rejectCause, hv]

/-- A running step faults in the fetch, or executes what the bytes at the program counter decode to (spec R58). -/
theorem step_fetch_cases {s : State} (hrun : s.status = .running) :
    (∃ c, fetch s = .error c ∧ step s = raise s c) ∨ ∃ i, decode (codeBytes s) = .ok i ∧ step s = exec i s := by
  cases hd : decode (codeBytes s) with
  | ok i => exact .inr ⟨i, rfl, step_of_decode hrun hd⟩
  | error r =>
    have hf : fetch s = .error (rejectCause s.pc r) := by rw [fetch_eq_decode, hd, Except.mapError]
    exact .inl ⟨_, hf, step_of_fetch_error hrun hf⟩

/-- Settles O7: the fetch is the decoder on the code window, and `bytesFrom` fills the window from memory. -/
theorem stepRunsDecodedInstruction : Obligations.StepRunsDecodedInstruction := by
  unfold Obligations.StepRunsDecodedInstruction
  refine ⟨fun s i => step_of_decode, fun s k hk => ?window⟩
  rw [codeBytes, bytesFrom_getElem? _ _ _ _ hk]
  exact ⟨fun hin => if_pos (by omega), fun hout => if_neg (by omega)⟩

/-- Settles O8: the opcode is legal and too near the end to decode, so the fetch faults, and on an operand. -/
theorem operandFetchPastEndFaults : Obligations.OperandFetchPastEndFaults := by
  unfold Obligations.OperandFetchPastEndFaults
  intro s i hrun hop hend
  obtain ⟨c, hf, hstep⟩ | ⟨j, hd, _⟩ := step_fetch_cases hrun
  · obtain ⟨hrow, _⟩ | rfl := fetch_error_cases hf
    · rw [hop] at hrow
      exact absurd hrow (opcodeRow_opcode_ne_none i)
    · exact hstep
  · have hlen : j.length = i.length := length_eq_of_opcode_eq ((opcode_of_decode_codeBytes hd).trans hop)
    have hfit := pc_add_length_le_of_decode hd
    omega

/-! ## What a step can do -/

theorem Ends.answers_next {i : Instr} {s : State} {r : Result} (h : Ends i s r) : ∃ t, r = .next t := by
  obtain ⟨c, _, rfl⟩ | ⟨u, p, _, rfl, _⟩ | ⟨u, _, _, _, rfl⟩ | ⟨_, rfl⟩ := h
  · exact ⟨_, rfl⟩
  · exact ⟨_, rfl⟩
  · exact ⟨_, rfl⟩
  · exact ⟨_, rfl⟩

/-- Settles O9: a fault of the fetch leaves a state, and so does every way an instruction can end. -/
theorem runningStepAnswersNext : Obligations.RunningStepAnswersNext := by
  unfold Obligations.RunningStepAnswersNext
  intro s hrun
  obtain ⟨c, _, hstep⟩ | ⟨i, _, hstep⟩ := step_fetch_cases hrun
  · exact ⟨_, hstep⟩
  · rw [hstep]
    exact (exec_cases i s).answers_next

/-- Settles O10: the status guard answers before the fetch. -/
theorem noStepUnlessRunning : Obligations.NoStepUnlessRunning := by
  unfold Obligations.NoStepUnlessRunning
  exact fun s => ⟨fun h => whenRunning_halted h _, fun c h => whenRunning_faulted h _⟩

theorem running_of_step_next {s t : State} (h : step s = .next t) : s.status = .running := by
  obtain ⟨hhalted, hfaulted⟩ := noStepUnlessRunning s
  cases hs : s.status with
  | running => rfl
  | halted => rw [hhalted hs] at h; cases h
  | faulted c => rw [hfaulted c hs] at h; cases h

/-- The four ways from `s` to the next state `t` (spec R58, R59, R118): a fault before any write, a completed
instruction, a fault of the advance past address 255 with the writes committed, and HLT. -/
inductive StepCase (s t : State) : Prop
  | fault (c : Cause) (legal : c.legalAt s.pc = true) (next : t = s.setStatus (.faulted c))
  | complete (i : Instr) (u : State) (p : Byte) (code : decode (codeBytes s) = .ok i) (effect : Effect s u)
      (next : t = u.setPc p)
      (advanced : straightLine i = true → s.pc.toNat + i.length ≤ 255 ∧ p = BitVec.ofNat 8 (s.pc.toNat + i.length))
  | overrun (i : Instr) (u : State) (code : decode (codeBytes s) = .ok i) (effect : Effect s u)
      (advances : advances i = true) (last : s.pc.toNat + i.length = 256)
      (next : t = u.setStatus (.faulted (.addressErrorMem 256 s.pc)))
  | halt (code : decode (codeBytes s) = .ok .hlt) (next : t = s.setStatus .halted)

/-- A fault of the fetch tells the truth (spec R111, R112). -/
theorem fetch_error_legalAt {s : State} {c : Cause} (h : fetch s = .error c) : c.legalAt s.pc = true := by
  obtain ⟨hrow, rfl⟩ | rfl := fetch_error_cases h
  · simp [Cause.legalAt, hrow]
  · simp [Cause.legalAt]

/-- A fault before the first write tells the truth; CALL's return address is at most 256, since CALL was fetched. -/
theorem EarlyFault.legalAt {i : Instr} {s : State} {c : Cause} (h : EarlyFault i s c)
    (hfit : s.pc.toNat + i.length ≤ 256) : c.legalAt s.pc = true := by
  obtain ⟨b, hb, rfl⟩ | rfl | rfl | ⟨⟨a, rfl⟩, hend, rfl⟩ := h
  · simpa [Cause.legalAt] using List.find?_some hb
  · simp [Cause.legalAt]
  · simp [Cause.legalAt]
  · have hv : (s.pc.toNat : Int) + 2 = 256 := by
      rw [Instr.length] at hfit
      omega
    simp [Cause.legalAt, hv]

/-- The inversion lemma of `step`. -/
theorem step_cases {s t : State} (h : step s = .next t) : StepCase s t := by
  obtain ⟨c, hf, hstep⟩ | ⟨i, hd, hstep⟩ := step_fetch_cases (running_of_step_next h) <;> rw [hstep] at h
  · exact .fault c (fetch_error_legalAt hf) (Host.Outcome.next.inj h).symm
  · have hfit := pc_add_length_le_of_decode hd
    obtain ⟨c, hc, he⟩ | ⟨u, p, hu, he, hadv⟩ | ⟨u, hu, hadv, hend, he⟩ | ⟨rfl, he⟩ := exec_cases i s <;>
      rw [he] at h <;> have ht := (Host.Outcome.next.inj h).symm
    · exact .fault c (hc.legalAt hfit) ht
    · exact .complete i u p hd hu ht hadv
    · have hlast : s.pc.toNat + i.length = 256 := by omega
      have hv : (s.pc.toNat : Int) + (i.length : Int) = 256 := by omega
      rw [hv] at ht
      exact .overrun i u hd hu hadv hlast ht
    · exact .halt hd ht

/-- A completed instruction leaves the machine running. -/
theorem Effect.setPc_running {s u : State} (h : Effect s u) (hrun : s.status = .running) (p : Byte) :
    (u.setPc p).status = .running := h.status.trans hrun

/-! ## The invariant -/

/-- Settles O38: memory is empty, the flags are clear and the status is `running`. -/
theorem invariantAtReset : Obligations.InvariantAtReset := ⟨Memory.wf_reset, rfl, rfl⟩

theorem Effect.mem_wf {s u : State} (h : Effect s u) (hs : s.mem.wf = true) : u.mem.wf = true := by
  obtain hm | ⟨a, v, hm⟩ := h.mem <;> rw [hm]
  · exact hs
  · exact Memory.wf_write a v hs

theorem Effect.fl_legal {s u : State} (h : Effect s u) (hs : legalFlags s.fl = true) : legalFlags u.fl = true := by
  obtain hf | hf | hf | hf := h.fl <;> rw [hf]
  · exact hs
  all_goals rfl

/-- Settles O39: an instruction's writes keep memory canonical and the flags legal, and every fault record is true. -/
theorem stepKeepsInvariant : Obligations.StepKeepsInvariant := by
  unfold Obligations.StepKeepsInvariant
  intro s t hinv h
  obtain ⟨hwf, hfl, _⟩ := hinv
  have hrun := running_of_step_next h
  cases step_cases h with
  | fault c legal next =>
    subst next
    exact ⟨hwf, hfl, legal⟩
  | complete i u p _ effect next _ =>
    subst next
    refine ⟨effect.mem_wf hwf, effect.fl_legal hfl, ?_⟩
    rw [effect.setPc_running hrun]
    rfl
  | overrun i u _ effect _ _ next =>
    subst next
    refine ⟨effect.mem_wf hwf, effect.fl_legal hfl, ?_⟩
    simp [Status.legalAt, Cause.legalAt, effect.pc]
  | halt _ next =>
    subst next
    exact ⟨hwf, hfl, rfl⟩

/-- Settles O40: an instruction's writes keep the flags or set them to one of CMP's three results. -/
theorem flagsNeverClearAfterCmp : Obligations.FlagsNeverClearAfterCmp := by
  unfold Obligations.FlagsNeverClearAfterCmp
  intro s t h hfl
  have of_effect {u : State} (hu : Effect s u) : u.fl = 0x01 ∨ u.fl = 0x02 ∨ u.fl = 0x04 := by
    obtain hkept | hset := hu.fl
    · rwa [hkept]
    · exact hset
  cases step_cases h with
  | fault c _ next => rwa [next, State.setStatus_fl]
  | complete i u p _ effect next _ => rw [next, State.setPc_fl]; exact of_effect effect
  | overrun i u _ effect _ _ next => rw [next, State.setStatus_fl]; exact of_effect effect
  | halt _ next => rwa [next, State.setStatus_fl]

/-! ## Faults and halts -/

/-- Settles O41: a fault before the writes has a record that tells the truth, which this cause never does; the fault of
the advance is an address error. -/
theorem internalDispatchErrorUnreachable : Obligations.InternalDispatchErrorUnreachable := by
  unfold Obligations.InternalDispatchErrorUnreachable
  intro s t hrun h hbad
  cases step_cases h with
  | fault c legal next =>
    subst next
    cases hbad
    cases legal
  | complete i u p _ effect next _ =>
    rw [next, effect.setPc_running hrun] at hbad
    cases hbad
  | overrun i u _ _ _ _ next => subst next; cases hbad
  | halt _ next => subst next; cases hbad

/-- Settles O29: HLT sets the status, and the other ways an instruction can end leave it running or faulted. -/
theorem hltHalts : Obligations.HltHalts := by
  unfold Obligations.HltHalts
  refine ⟨fun s => rfl, fun i s t hrun h hhalt => ?only⟩
  obtain ⟨c, _, he⟩ | ⟨u, p, hu, he, _⟩ | ⟨u, _, _, _, he⟩ | ⟨hi, he⟩ := exec_cases i s
  all_goals rw [he] at h; cases h
  · cases hhalt
  · rw [hu.setPc_running hrun] at hhalt
    cases hhalt
  · cases hhalt
  · exact hi

/-- Settles O36: a fault of the fetch does not halt, HLT alone of the instructions does, and 0x01 is its byte. -/
theorem onlyHltByteHalts : Obligations.OnlyHltByteHalts := by
  unfold Obligations.OnlyHltByteHalts
  intro s t hrun h
  obtain ⟨hltExec, hltOnly⟩ := hltHalts
  have hlt_of_halted (hhalt : t.status = .halted) : decode (codeBytes s) = .ok .hlt := by
    obtain ⟨c, _, hstep⟩ | ⟨i, hd, hstep⟩ := step_fetch_cases hrun <;> rw [hstep] at h
    · cases h
      cases hhalt
    · rw [hd, hltOnly i s t hrun h hhalt]
  have next_of_hlt (hd : decode (codeBytes s) = .ok .hlt) : t = { s with status := .halted } := by
    rw [step_of_decode hrun hd, hltExec s] at h
    exact (Host.Outcome.next.inj h).symm
  refine ⟨⟨fun hhalt => ?byte, fun hbyte => ?halted⟩, fun hhalt => next_of_hlt (hlt_of_halted hhalt)⟩
  case byte => exact (decode_codeBytes_hlt_iff s).mp (hlt_of_halted hhalt)
  case halted => rw [next_of_hlt ((decode_codeBytes_hlt_iff s).mpr hbyte)]

/-- Settles O37: where the advance would wrap the step faults, and otherwise `pc` is set to an address below 256. -/
theorem sequentialAdvanceNeverWraps : Obligations.SequentialAdvanceNeverWraps := by
  unfold Obligations.SequentialAdvanceNeverWraps
  intro s t i hrun hd hline h hrun'
  cases step_cases h with
  | fault c _ next => subst next; cases hrun'
  | complete j u p code _ next advanced =>
    obtain rfl : i = j := Except.ok.inj (hd.symm.trans code)
    obtain ⟨hle, rfl⟩ := advanced hline
    rw [next, State.setPc_pc, BitVec.toNat_ofNat, Nat.mod_eq_of_lt (by omega)]
  | overrun j u _ _ _ _ next => subst next; cases hrun'
  | halt _ next => subst next; cases hrun'

/-- An instruction that ends with the advance is none of those that set `pc` or halt. -/
theorem not_jump_of_advances {i : Instr} (h : advances i = true) :
    i ≠ .hlt ∧ i ≠ .ret ∧ (∀ a, i ≠ .jmp a) ∧ ∀ a, i ≠ .call a := by
  cases i <;> simp_all [advances]

/-- At the end of memory a fault is an early one, or follows the writes that the instruction makes at address 0 as well
(spec R59; the spec's decision D8). -/
theorem fault_at_end_cases {i : Instr} {s t : State} {c : Cause} (ha : advances i = true)
    (hend : s.pc.toNat + i.length = 256) (hrun : s.status = .running) (h : exec i s = .next t)
    (hc : t.status = .faulted c) :
    t = { s with status := .faulted c } ∨
      exec i { s with pc := 0 } = .next { t with pc := BitVec.ofNat 8 i.length, status := s.status } := by
  obtain ⟨d, _, he⟩ | ⟨p, he⟩ | ⟨u, hu, he⟩ := exec_advanceForm ha s
  · left
    rw [he] at h
    cases h
    cases hc
    rfl
  · rw [he] at h
    cases h
    rw [State.setPc_status, hrun] at hc
    cases hc
  · right
    have hlen : i.length ≤ 3 := by
      have := i.length_operandBytes_le
      rw [i.length_eq]
      omega
    have hhere : exec i s = advancePc i.length (u.setPc s.pc) := he s.pc
    rw [advancePc_fault (by rw [State.setPc_pc]; omega), h] at hhere
    cases hhere
    have hthere : exec i (s.setPc 0) = .next ((u.setPc 0).setPc (BitVec.ofNat 8 (0 + i.length))) :=
      (he 0).trans (advancePc_ok (s := u.setPc 0) (show 0 + i.length ≤ 255 by omega))
    rw [Nat.zero_add] at hthere
    exact hthere.trans (by rw [← hu.status]; rfl)

/-- Settles O35: a step faults before the writes, or in the advance, where the writes do not depend on the position. -/
theorem faultsArePrecise : Obligations.FaultsArePrecise := by
  unfold Obligations.FaultsArePrecise
  intro s t c hrun h hc
  cases step_cases h with
  | fault d _ next =>
    subst next
    cases hc
    exact ⟨rfl, .inl rfl⟩
  | complete i u p _ effect next _ =>
    rw [next, effect.setPc_running hrun] at hc
    cases hc
  | overrun i u code effect adv last next =>
    have hpc : t.pc = s.pc := by rw [next, State.setStatus_pc, effect.pc]
    obtain rfl : Cause.addressErrorMem 256 s.pc = c := by rw [next] at hc; exact Status.faulted.inj hc
    have hexec : exec i s = .next t := (step_of_decode hrun code).symm.trans h
    obtain hsame | hwrites := fault_at_end_cases adv last hrun hexec hc
    · exact ⟨hpc, .inl hsame⟩
    · obtain ⟨hhlt, hret, hjmp, hcall⟩ := not_jump_of_advances adv
      exact ⟨hpc, .inr ⟨i, code, last, rfl, hhlt, hret, hjmp, hcall, hwrites⟩⟩
  | halt _ next =>
    rw [next] at hc
    cases hc

/-! ## Runs (spec R58, R145) -/

theorem runFor_succ_of_next {s t : State} (h : step s = .next t) (n : Nat) : runFor (n + 1) s = runFor n t := by
  rw [runFor, h]

/-- Where no step is defined the run stays. -/
theorem runFor_of_outcome_ne_none {s : State} (h : s.status.outcome ≠ none) (n : Nat) : runFor n s = s := by
  obtain ⟨hhalted, hfaulted⟩ := noStepUnlessRunning s
  cases n with
  | zero => rfl
  | succ n =>
    cases hs : s.status with
    | running => rw [hs] at h; exact absurd rfl h
    | halted => rw [runFor, hhalted hs]
    | faulted c => rw [runFor, hfaulted c hs]

/-- Settles O11: the steps run before the outcome are the same, and after it there are none. -/
theorem endedRunKeepsItsState : Obligations.EndedRunKeepsItsState := by
  unfold Obligations.EndedRunKeepsItsState
  intro s n m h
  induction n generalizing s with
  | zero => exact runFor_of_outcome_ne_none h _
  | succ n ih =>
    cases hs : s.status with
    | running =>
      obtain ⟨t, ht⟩ := runningStepAnswersNext s hs
      rw [runFor_succ_of_next ht] at h ⊢
      rw [Nat.add_right_comm, runFor_succ_of_next ht]
      exact ih t h
    | halted | faulted c =>
      have hout : s.status.outcome ≠ none := by simp [hs, Status.outcome]
      rw [runFor_of_outcome_ne_none hout, runFor_of_outcome_ne_none hout]

/-- Settles O50: the jump steps to the state it is in, so a run of any length does. -/
theorem jumpToSelfRunsForever : Obligations.JumpToSelfRunsForever := by
  unfold Obligations.JumpToSelfRunsForever
  intro s a ra n hrun hd ha hself
  have hstep : step s = .next s := by
    rw [step_of_decode hrun hd, exec_jmp, branchWhen_taken ha, hself, State.setPc_self]
  have hstay : runFor n s = s := by
    induction n with
    | zero => rfl
    | succ n ih => rw [runFor_succ_of_next hstep, ih]
  refine ⟨hstay, ?_⟩
  rw [hstay, hrun]
  rfl

end Machine

end Sys2Proof
end

section
/-! Proofs about the storage: the canonical form of memory determines it, and the eight registers are plain cells. -/

namespace Sys2Proof.Machine

/-- Two canonical lists from the same address up that agree in every cell are equal: their first entries are at the
same address, since below its first entry a canonical list reads as unlisted. -/
theorem Memory.eq_of_lookup_eq {m n : Memory} {lo : Nat} (hm : m.wfFrom lo = true) (hn : n.wfFrom lo = true)
    (h : ∀ a, a < 256 → m.lookup a = n.lookup a) : m = n := by
  induction m generalizing n lo with
  | nil =>
    cases n with
    | nil => rfl
    | cons d n =>
      obtain ⟨l, v⟩ := d
      obtain ⟨_, hl, hv, _⟩ := Memory.wfFrom_cons.mp hn
      exact absurd (by simpa [Memory.lookup] using (h l hl).symm) hv
  | cons c m ih =>
    obtain ⟨k, w⟩ := c
    obtain ⟨hk0, hk, hw, hm'⟩ := Memory.wfFrom_cons.mp hm
    cases n with
    | nil => exact absurd (by simpa [Memory.lookup] using h k hk) hw
    | cons d n =>
      obtain ⟨l, v⟩ := d
      obtain ⟨hl0, hl, hv, hn'⟩ := Memory.wfFrom_cons.mp hn
      obtain hlt | rfl | hgt := Nat.lt_trichotomy k l
      · have hunlisted := h k hk
        rw [Memory.lookup_below (lo := l) (Memory.wfFrom_cons.mpr ⟨le_rfl, hl, hv, hn'⟩) hlt] at hunlisted
        exact absurd (by simpa [Memory.lookup] using hunlisted) hw
      · obtain rfl : w = v := by simpa [Memory.lookup] using h k hk
        have htail : m = n := by
          refine ih hm' hn' fun a ha => ?_
          obtain hle | hgt := Nat.lt_or_ge a (k + 1)
          · rw [Memory.lookup_below hm' hle, Memory.lookup_below hn' hle]
          · simpa [Memory.lookup, show k ≠ a by omega] using h a ha
        rw [htail]
      · have hunlisted := h l hl
        rw [Memory.lookup_below (lo := k) (Memory.wfFrom_cons.mpr ⟨le_rfl, hk, hw, hm'⟩) hgt] at hunlisted
        exact absurd (by simpa [Memory.lookup] using hunlisted.symm) hv

/-- Settles O14: every cell is some byte's, so the lists agree in every cell. -/
theorem canonicalMemoriesReadAlikeAreEqual : Obligations.CanonicalMemoriesReadAlikeAreEqual := by
  unfold Obligations.CanonicalMemoriesReadAlikeAreEqual
  intro m n hm hn h
  refine Memory.eq_of_lookup_eq hm hn fun a ha => ?_
  have hcell := h (BitVec.ofNat 8 a)
  simp only [Memory.read, BitVec.toNat_ofNat] at hcell
  rwa [Nat.mod_eq_of_lt ha] at hcell

/-- Settles O15: the register file read after a write, at the register written and at another. -/
theorem registerReadsBackWrite : Obligations.RegisterReadsBackWrite :=
  fun s r _ v => ⟨s.reg_setReg_same r v, fun hne => s.reg_setReg_ne hne v⟩

end Sys2Proof.Machine
end

section
/-! Proofs about each instruction's meaning, spec R70 to R102: what `exec` answers when the register operands are valid,
case by case of the checks, and when one is not. -/

namespace Sys2Proof.Machine

/-! ## The advance (spec R59) -/

theorem advancePc_spec (L : Nat) (u : State) :
    (u.pc.toNat + L ≤ 255 → advancePc L u = .next { u with pc := BitVec.ofNat 8 (u.pc.toNat + L) }) ∧
      (255 < u.pc.toNat + L →
        advancePc L u =
          .next { u with status := .faulted (.addressErrorMem ((u.pc.toNat : Int) + (L : Int)) u.pc) }) :=
  ⟨advancePc_ok, advancePc_fault⟩

/-! ## Register operands (spec R14, R57, R113) -/

/-- Every instruction begins with the checks of its register operands, operand A first (spec R117). -/
theorem exec_register_checks (i : Instr) :
    i.regOperands = [] ∨
      (∃ (a : Byte) (k : State → RegIndex → Result), i.regOperands = [a] ∧
        ∀ s, exec i s = orRaise s (regIdx s a) (k s)) ∨
      ∃ (a b : Byte) (k : State → RegIndex → RegIndex → Result), i.regOperands = [a, b] ∧
        ∀ s, exec i s = orRaise s (regIdx s a) fun ra => orRaise s (regIdx s b) (k s ra) := by
  cases i with
  | hlt | ret => exact .inl rfl
  | ldi a _ | prn a | push a | pop a | call a | jmp a | jeq a | jne a =>
    exact .inr (.inl ⟨a, _, rfl, fun _ => rfl⟩)
  | mul a b | add a b | cmp a b => exact .inr (.inr ⟨a, b, _, rfl, fun _ => rfl⟩)

theorem exec_of_firstBadRegister {i : Instr} {v : Byte} (h : firstBadRegister i = some v) (s : State) :
    exec i s = raise s (.addressErrorReg v s.pc) := by
  obtain hops | ⟨a, k, hops, he⟩ | ⟨a, b, k, hops, he⟩ := exec_register_checks i
  · simp [firstBadRegister, hops] at h
  · obtain ⟨hbad, rfl⟩ : 7 < a.toNat ∧ a = v := by simpa [firstBadRegister, hops] using h
    rw [he, regIdx_error hbad, orRaise_error]
  · rw [he]
    obtain ⟨ra, ha, e⟩ | ⟨hbad, e⟩ := regIdx_cases s a <;> rw [e]
    · have hgood : ¬ 7 < a.toNat := by omega
      obtain ⟨hbad, rfl⟩ : 7 < b.toNat ∧ b = v := by simpa [firstBadRegister, hops, hgood] using h
      rw [orRaise_ok, regIdx_error hbad, orRaise_error]
    · obtain rfl : a = v := by simpa [firstBadRegister, hops, hbad] using h
      rw [orRaise_error]

/-- Settles O16: the checks come first; and of the ways an instruction can end, a fault before the writes alone can leave
such a record, by the check of the operand it names. -/
theorem registerByteAboveSevenFaults : Obligations.RegisterByteAboveSevenFaults := by
  unfold Obligations.RegisterByteAboveSevenFaults
  refine ⟨fun i s v hv => ?faults, fun i s t v p hrun h hc => ?only, rfl, rfl⟩
  case faults => exact ⟨by simpa using List.find?_some hv, exec_of_firstBadRegister hv s⟩
  case only =>
    obtain ⟨c, hearly, he⟩ | ⟨u, q, hu, he, _⟩ | ⟨u, _, _, _, he⟩ | ⟨_, he⟩ := exec_cases i s
    all_goals rw [he] at h; cases h
    · cases hc
      obtain ⟨b, hb, heq⟩ | heq | heq | ⟨_, _, heq⟩ := hearly
      · cases heq
        exact ⟨hb, rfl⟩
      all_goals cases heq
    · rw [hu.setPc_running hrun] at hc
      cases hc
    · cases hc
    · cases hc

/-! ## ALU (spec R70 to R75) -/

section
variable {a b : Byte} {ra rb : RegIndex}

theorem aluInstr_valid (ha : a.toNat = ra.val) (hb : b.toNat = rb.val) (s : State) (f : RegIndex → RegIndex → State) :
    aluInstr a b s f = advancePc 3 (f ra rb) := by
  rw [aluInstr, regIdx_ok ha, orRaise_ok, regIdx_ok hb, orRaise_ok]

theorem exec_add_valid (ha : a.toNat = ra.val) (hb : b.toNat = rb.val) (s : State) :
    exec (.add a b) s = advancePc 3 (s.setReg ra (BitVec.ofNat 8 ((s.reg ra).toNat + (s.reg rb).toNat))) :=
  aluInstr_valid ha hb s _

theorem exec_mul_valid (ha : a.toNat = ra.val) (hb : b.toNat = rb.val) (s : State) :
    exec (.mul a b) s = advancePc 3 (s.setReg ra (BitVec.ofNat 8 ((s.reg ra).toNat * (s.reg rb).toNat))) :=
  aluInstr_valid ha hb s _

theorem exec_cmp_valid (ha : a.toNat = ra.val) (hb : b.toNat = rb.val) (s : State) :
    exec (.cmp a b) s = advancePc 3 (s.setFl (compareFlags (s.reg ra) (s.reg rb))) :=
  aluInstr_valid ha hb s _

end

/-- A byte is a number modulo 256. -/
theorem byte_ofNat_mod (n : Nat) : BitVec.ofNat 8 (n % 256) = BitVec.ofNat 8 n :=
  BitVec.eq_of_toNat_eq (by simp)

/-- Settles O17: with both operands valid ADD is the advance on the state that holds the sum. -/
theorem addWritesWrappedSum : Obligations.AddWritesWrappedSum := by
  unfold Obligations.AddWritesWrappedSum
  intro a b ra rb s ha hb
  rw [byte_ofNat_mod, exec_add_valid ha hb]
  intro u
  exact advancePc_spec 3 u

/-- Settles O18: with both operands valid MUL is the advance on the state that holds the product. -/
theorem mulWritesWrappedProduct : Obligations.MulWritesWrappedProduct := by
  unfold Obligations.MulWritesWrappedProduct
  intro a b ra rb s ha hb
  rw [byte_ofNat_mod, exec_mul_valid ha hb]
  intro u
  exact advancePc_spec 3 u

/-- Table R75 read from the order of the values to the flag byte. -/
theorem compareFlags_eq {u v f : Byte} (h : u.toNat = v.toNat ∧ f = 0x01 ∨ v.toNat < u.toNat ∧ f = 0x02 ∨
    u.toNat < v.toNat ∧ f = 0x04) : compareFlags u v = f := by
  obtain ⟨horder, rfl⟩ | ⟨horder, rfl⟩ | ⟨horder, rfl⟩ := h
  · rw [compareFlags, if_pos horder]
  · rw [compareFlags, if_neg (Nat.ne_of_gt horder), if_pos horder]
  · rw [compareFlags, if_neg (Nat.ne_of_lt horder), if_neg (Nat.lt_asymm horder)]

/-- Settles O19: with both operands valid CMP is the advance on the state that holds the flags of table R75. -/
theorem cmpWritesOneFlag : Obligations.CmpWritesOneFlag := by
  unfold Obligations.CmpWritesOneFlag
  intro a b ra rb s f ha hb hf
  rw [exec_cmp_valid ha hb, compareFlags_eq hf]
  exact advancePc_spec 3 (s.setFl f)

/-! ## Stack and subroutine (spec R80 to R84) -/

section
variable {a : Byte} {ra : RegIndex}

theorem exec_push_at_zero (ha : a.toNat = ra.val) {s : State} (hsp : s.sp.toNat = 0) :
    exec (.push a) s = raise s (.addressErrorMem (-1) s.pc) := by
  show execPush a s = _
  rw [execPush_eq, regIdx_ok ha, orRaise_ok, spDown_error hsp, orRaise_error]

theorem exec_push_valid (ha : a.toNat = ra.val) {s : State} {t : Byte} (ht : s.sp.toNat = t.toNat + 1) :
    exec (.push a) s =
      advancePc 2 { s.setReg 7 t with mem := s.mem.write t (if ra = 7 then t else s.reg ra) } := by
  show execPush a s = _
  rw [execPush_eq, regIdx_ok ha, orRaise_ok, spDown_ok ht, orRaise_ok, State.reg_setSp]
  rfl

/-- The value that POP increments: the popped byte for POP R7, the stack pointer otherwise (the spec's decision D15). -/
def popBase (s : State) (ra : RegIndex) : Byte := if ra = 7 then s.mem.read s.sp else s.sp

theorem exec_pop_eq (ha : a.toNat = ra.val) (s : State) :
    exec (.pop a) s = orRaise s (spUp s (popBase s ra)) fun t =>
      advancePc 2 ((s.setReg ra (s.mem.read s.sp)).setReg 7 t) := by
  show execPop a s = _
  rw [execPop_eq, regIdx_ok ha, orRaise_ok, ← apply_ite (spUp s)]
  rfl

theorem exec_pop_valid (ha : a.toNat = ra.val) {s : State} {t : Byte} (ht : t.toNat = (popBase s ra).toNat + 1) :
    exec (.pop a) s = advancePc 2 ((s.setReg ra (s.mem.read s.sp)).setReg 7 t) := by
  rw [exec_pop_eq ha, spUp_ok ht, orRaise_ok]

theorem exec_call_past_end (ha : a.toNat = ra.val) {s : State} (hpc : 255 < s.pc.toNat + 2) :
    exec (.call a) s = raise s (.addressErrorMem ((s.pc.toNat : Int) + 2) s.pc) := by
  show execCall a s = _
  rw [execCall_eq, regIdx_ok ha, orRaise_ok, returnAddress_error hpc, orRaise_error]

theorem exec_call_at_zero (ha : a.toNat = ra.val) {s : State} (hpc : s.pc.toNat + 2 ≤ 255) (hsp : s.sp.toNat = 0) :
    exec (.call a) s = raise s (.addressErrorMem (-1) s.pc) := by
  show execCall a s = _
  rw [execCall_eq, regIdx_ok ha, orRaise_ok, returnAddress_ok hpc, orRaise_ok, spDown_error hsp, orRaise_error]

theorem exec_call_valid (ha : a.toNat = ra.val) {s : State} {t : Byte} (hpc : s.pc.toNat + 2 ≤ 255)
    (ht : s.sp.toNat = t.toNat + 1) :
    exec (.call a) s = .next { s.setReg 7 t with
      mem := s.mem.write t (BitVec.ofNat 8 (s.pc.toNat + 2)), pc := if ra = 7 then t else s.reg ra } := by
  show execCall a s = _
  rw [execCall_eq, regIdx_ok ha, orRaise_ok, returnAddress_ok hpc, orRaise_ok, spDown_ok ht, orRaise_ok,
    State.reg_setSp]
  rfl

end

theorem exec_ret_at_end {s : State} (hsp : s.sp.toNat = 255) : exec .ret s = raise s (.addressErrorMem 256 s.pc) := by
  show execRet s = _
  rw [execRet_eq, spUp_error hsp, orRaise_error]

theorem exec_ret_valid {s : State} {t : Byte} (ht : t.toNat = s.sp.toNat + 1) :
    exec .ret s = .next { s.setReg 7 t with pc := s.mem.read s.sp } := by
  show execRet s = _
  rw [execRet_eq, spUp_ok ht, orRaise_ok]
  rfl

/-- Settles O20: with the stack pointer above 0 PUSH is the advance on the state that holds its two writes. -/
theorem pushStoresBelowStackPointer : Obligations.PushStoresBelowStackPointer := by
  unfold Obligations.PushStoresBelowStackPointer
  intro a ra s ha
  refine ⟨exec_push_at_zero ha, fun t ht => ?_⟩
  rw [exec_push_valid ha ht]
  intro v u
  exact advancePc_spec 2 u

/-- Settles O21: with `popBase` below 255 POP is the advance on the state that holds its two writes. -/
theorem popLoadsThenRaisesStackPointer : Obligations.PopLoadsThenRaisesStackPointer := by
  unfold Obligations.PopLoadsThenRaisesStackPointer
  intro a ra s ha v old
  refine ⟨fun hold => ?_, fun t ht => ?_⟩
  · rw [exec_pop_eq ha, spUp_error (v := popBase s ra) hold]
    rfl
  · rw [exec_pop_valid ha ht]
    intro u
    exact advancePc_spec 2 u

/-- Settles O22: the return address is checked, then the stack pointer, and past both CALL completes. -/
theorem callPushesReturnAddressAndJumps : Obligations.CallPushesReturnAddressAndJumps := by
  unfold Obligations.CallPushesReturnAddressAndJumps
  exact fun a ra s ha => ⟨exec_call_past_end ha, exec_call_at_zero ha, fun t => exec_call_valid ha⟩

/-- Settles O23: the one check of RET is that of the raised stack pointer. -/
theorem retPopsProgramCounter : Obligations.RetPopsProgramCounter := by
  unfold Obligations.RetPopsProgramCounter
  exact fun s => ⟨exec_ret_at_end, fun t => exec_ret_valid⟩

/-! ## Branches (spec R90 to R93) -/

/-- A jump not taken advances by its length (spec R90). -/
theorem branchWhen_not_taken {a : Byte} {ra : RegIndex} (h : a.toNat = ra.val) (s : State) :
    branchWhen false a s = advancePc 2 s := by
  rw [branchWhen, regIdx_ok h, orRaise_ok, if_neg Bool.false_ne_true]

theorem exec_jeq (a : Byte) (s : State) : exec (.jeq a) s = branchWhen (s.fl.getLsbD 0) a s := rfl

theorem exec_jne (a : Byte) (s : State) : exec (.jne a) s = branchWhen (!s.fl.getLsbD 0) a s := rfl

/-- Settles O25: JEQ is the branch on bit 0, which jumps when it is set and advances when it is clear. -/
theorem jeqJumpsOnEqual : Obligations.JeqJumpsOnEqual := by
  unfold Obligations.JeqJumpsOnEqual
  intro a ra s ha
  rw [exec_jeq]
  refine ⟨fun hset => ?_, fun hclear => ?_, fun hclear => ?_⟩
  · rw [hset]; exact branchWhen_taken ha s
  · rw [hclear, branchWhen_not_taken ha]; exact (advancePc_spec 2 s).1
  · rw [hclear, branchWhen_not_taken ha]; exact (advancePc_spec 2 s).2

/-- Settles O26: JNE is the branch on bit 0 inverted. -/
theorem jneJumpsOnNotEqual : Obligations.JneJumpsOnNotEqual := by
  unfold Obligations.JneJumpsOnNotEqual
  intro a ra s ha
  rw [exec_jne]
  refine ⟨fun hclear => ?_, fun hset => ?_, fun hset => ?_⟩
  · rw [hclear]; exact branchWhen_taken ha s
  · rw [hset, Bool.not_true, branchWhen_not_taken ha]; exact (advancePc_spec 2 s).1
  · rw [hset, Bool.not_true, branchWhen_not_taken ha]; exact (advancePc_spec 2 s).2

/-! ## Data and output (spec R100, R101) -/

theorem exec_ldi_valid {a : Byte} {ra : RegIndex} (ha : a.toNat = ra.val) (imm : Byte) (s : State) :
    exec (.ldi a imm) s = advancePc 3 (s.setReg ra imm) := by
  show execLdi a imm s = _
  rw [execLdi, regIdx_ok ha, orRaise_ok]

theorem exec_prn_valid {a : Byte} {ra : RegIndex} (ha : a.toNat = ra.val) (s : State) :
    exec (.prn a) s = advancePc 2 (s.emit (s.reg ra)) := by
  show execPrn a s = _
  rw [execPrn, regIdx_ok ha, orRaise_ok]

/-- Settles O27: with a valid operand LDI is the advance on the state that holds the immediate. -/
theorem ldiLoadsImmediate : Obligations.LdiLoadsImmediate := by
  unfold Obligations.LdiLoadsImmediate
  intro a imm ra s ha
  rw [exec_ldi_valid ha]
  exact advancePc_spec 3 (s.setReg ra imm)

/-- Settles O28: with a valid operand PRN is the advance on the state whose trace ends with the value. -/
theorem prnAppendsRegister : Obligations.PrnAppendsRegister := by
  unfold Obligations.PrnAppendsRegister
  intro a ra s ha
  rw [exec_prn_valid ha]
  exact advancePc_spec 2 (s.emit (s.reg ra))

end Sys2Proof.Machine
end

section
/-! Proofs of the frames, spec R13, R19, R22 and R33: what an instruction may write, said once as `exec_writes`, and that
it carries neither the flags nor the trace along, said once as `exec_transparent`. -/

namespace Sys2Proof.Machine

/-! ## What an instruction may write -/

/-- What `i` may change from `s` to `t` besides `pc` and the status: the registers of table R13, the cell below the stack
pointer for PUSH and CALL (R33), the flags for CMP (R19) and the trace for PRN (R22). -/
structure Writes (i : Instr) (s t : State) : Prop where
  reg : ∀ r, mayWriteReg i r = false → t.reg r = s.reg r
  mem : t.mem = s.mem ∨ (∃ a, i = .push a ∨ i = .call a) ∧ ∃ d v, spDown s = .ok d ∧ t.mem = s.mem.write d v
  fl : (∀ a b, i ≠ .cmp a b) → t.fl = s.fl
  out : (∀ a, i ≠ .prn a) → t.out = s.out

/-- Every next state that `r` answers keeps to what `i` may write. -/
def KeepsFrame (i : Instr) (s : State) (r : Result) : Prop := ∀ t, r = .next t → Writes i s t

section
variable {i : Instr} {s u : State}

theorem Writes.refl : Writes i s s := ⟨fun _ _ => rfl, .inl rfl, fun _ => rfl, fun _ => rfl⟩

theorem Writes.setPc (h : Writes i s u) (p : Byte) : Writes i s (u.setPc p) := ⟨h.reg, h.mem, h.fl, h.out⟩

theorem Writes.setStatus (h : Writes i s u) (v : Status) : Writes i s (u.setStatus v) := ⟨h.reg, h.mem, h.fl, h.out⟩

/-- An instruction that writes registers alone. -/
theorem Writes.of_reg (h : ∀ r, mayWriteReg i r = false → u.reg r = s.reg r) (hm : u.mem = s.mem) (hf : u.fl = s.fl)
    (ho : u.out = s.out) : Writes i s u := ⟨h, .inl hm, fun _ => hf, fun _ => ho⟩

theorem KeepsFrame.next (h : Writes i s u) : KeepsFrame i s (.next u) := by
  intro t ht
  cases ht
  exact h

theorem KeepsFrame.advance (L : Nat) (h : Writes i s u) : KeepsFrame i s (advancePc L u) := by
  obtain ⟨_, e⟩ | ⟨_, e⟩ := advancePc_cases L u <;> rw [e]
  · exact .next (h.setPc _)
  · exact .next (h.setStatus _)

/-- A check that fails writes nothing. -/
theorem KeepsFrame.check {α : Type} {c : Except Cause α} {k : α → Result}
    (h : ∀ v, c = .ok v → KeepsFrame i s (k v)) : KeepsFrame i s (orRaise s c k) := by
  obtain ⟨v, hv, e⟩ | ⟨c, _, e⟩ := orRaise_cases s c k <;> rw [e]
  · exact h v hv
  · exact .next (Writes.refl.setStatus _)

theorem KeepsFrame.register {a : Byte} {k : RegIndex → Result}
    (h : ∀ r : RegIndex, a.toNat = r.val → KeepsFrame i s (k r)) : KeepsFrame i s (orRaise s (regIdx s a) k) :=
  .check fun r hr => by
    obtain ⟨q, hq, e⟩ | ⟨_, e⟩ := regIdx_cases s a
    · obtain rfl : q = r := Except.ok.inj (e.symm.trans hr)
      exact h q hq
    · rw [e] at hr
      cases hr

theorem KeepsFrame.alu {a b : Byte} {f : RegIndex → RegIndex → State}
    (h : ∀ r q : RegIndex, a.toNat = r.val → Writes i s (f r q)) : KeepsFrame i s (aluInstr a b s f) :=
  .register fun r hr => .register fun q _ => .advance 3 (h r q hr)

theorem KeepsFrame.branch {a : Byte} {taken : Bool} : KeepsFrame i s (branchWhen taken a s) :=
  .register fun _ _ => by
    cases taken with
    | true => exact .next (Writes.refl.setPc _)
    | false => exact .advance 2 Writes.refl

/-- A write to operand A's register keeps every register that is not operand A. -/
theorem reg_setReg_of_not_operand {a : Byte} {r q : RegIndex} (hr : a.toNat = r.val)
    (hq : decide (a.toNat = q.val) = false) (v : Byte) : (s.setReg r v).reg q = s.reg q := by
  refine s.reg_setReg_ne (fun h => of_decide_eq_false hq ?_) v
  rw [hr, h]

theorem reg_setSp_of_ne {q : RegIndex} (hq : decide (q = 7) = false) (v : Byte) : (s.setSp v).reg q = s.reg q :=
  s.reg_setReg_ne (of_decide_eq_false hq) v

end

/-- The frame of all instructions. -/
theorem exec_keepsFrame (i : Instr) (s : State) : KeepsFrame i s (exec i s) := by
  cases i with
  | hlt => exact .next (Writes.refl.setStatus _)
  | jmp a | jeq a | jne a => exact .branch
  | ldi a imm =>
    exact .register fun r hr => .advance 3 (.of_reg (fun q hq => reg_setReg_of_not_operand hr hq _) rfl rfl rfl)
  | mul a b | add a b =>
    exact .alu fun r _ hr => .of_reg (fun q hq => reg_setReg_of_not_operand hr hq _) rfl rfl rfl
  | cmp a b => exact .alu fun r q _ => ⟨fun _ _ => rfl, .inl rfl, fun h => absurd rfl (h a b), fun _ => rfl⟩
  | prn a =>
    exact .register fun r _ => .advance 2 ⟨fun _ _ => rfl, .inl rfl, fun _ => rfl, fun h => absurd rfl (h a)⟩
  | push a =>
    show KeepsFrame _ s (execPush a s)
    rw [execPush_eq]
    exact .register fun r _ => .check fun t ht => .advance 2
      ⟨fun q hq => reg_setSp_of_ne hq t, .inr ⟨⟨a, .inl rfl⟩, t, _, ht, rfl⟩, fun _ => rfl, fun _ => rfl⟩
  | call a =>
    show KeepsFrame _ s (execCall a s)
    rw [execCall_eq]
    exact .register fun r _ => .check fun p _ => .check fun t ht => .next
      ⟨fun q hq => reg_setSp_of_ne hq t, .inr ⟨⟨a, .inr rfl⟩, t, _, ht, rfl⟩, fun _ => rfl, fun _ => rfl⟩
  | pop a =>
    show KeepsFrame _ s (execPop a s)
    rw [execPop_eq]
    refine .register fun r hr => .check fun t _ => .advance 2 (.of_reg (fun q hq => ?_) rfl rfl rfl)
    obtain ⟨hqa, hq7⟩ := Bool.or_eq_false_iff.mp hq
    rw [reg_setSp_of_ne hq7, reg_setReg_of_not_operand hr hqa]
  | ret =>
    show KeepsFrame _ s (execRet s)
    rw [execRet_eq]
    exact .check fun t _ => .next (.of_reg (fun q hq => reg_setSp_of_ne hq t) rfl rfl rfl)

theorem exec_writes {i : Instr} {s t : State} (h : exec i s = .next t) : Writes i s t := exec_keepsFrame i s t h

/-- Settles O30: the registers of the frame. -/
theorem registersChangeOnlyByTable : Obligations.RegistersChangeOnlyByTable :=
  fun _ _ _ r h hr => (exec_writes h).reg r hr

/-- Settles O31: in the frame PUSH and CALL alone write a cell. -/
theorem memoryUnchangedWithoutStore : Obligations.MemoryUnchangedWithoutStore := by
  unfold Obligations.MemoryUnchangedWithoutStore
  intro i s t h hpush hcall addr
  obtain hm | ⟨⟨a, rfl | rfl⟩, _⟩ := (exec_writes h).mem
  · rw [hm]
  · exact absurd rfl (hpush a)
  · exact absurd rfl (hcall a)

/-- Settles O32: in the frame the one cell written is the one that `spDown` gives. -/
theorem pushAndCallStoreOnlyAtSpDown : Obligations.PushAndCallStoreOnlyAtSpDown := by
  unfold Obligations.PushAndCallStoreOnlyAtSpDown
  intro i s t a _ h
  obtain hm | ⟨_, d, v, hd, hm⟩ := (exec_writes h).mem <;> rw [hm]
  · exact ⟨fun _ _ _ _ => rfl, fun _ _ _ => rfl⟩
  · rw [hd]
    refine ⟨?_, fun c hc => by cases hc⟩
    rintro _ ⟨⟩ addr hne
    exact Memory.read_write_ne hne s.mem v

/-! ## What an instruction does not depend on -/

/-- A change of the state that neither touches nor hides what the checks and the accesses use, so that every update can
be made before or after it. The update of `fl` is left out: CMP overwrites the flags. -/
structure Transparent (g : State → State) : Prop where
  mem : ∀ s, (g s).mem = s.mem
  x : ∀ s, (g s).x = s.x
  pc : ∀ s, (g s).pc = s.pc
  setReg : ∀ s r v, (g s).setReg r v = g (s.setReg r v)
  setMem : ∀ s m, (g s).setMem m = g (s.setMem m)
  setPc : ∀ s v, (g s).setPc v = g (s.setPc v)
  setStatus : ∀ s v, (g s).setStatus v = g (s.setStatus v)
  emit : ∀ s v, (g s).emit v = g (s.emit v)

/-- The change `g` made on the next state. -/
def mapNext (g : State → State) : Result → Result
  | .next t => .next (g t)
  | .fault r => .fault r
  | .refused r => .refused r

theorem next_eq_mapNext (g : State → State) (t : State) : (.next (g t) : Result) = mapNext g (.next t) := rfl

namespace Transparent

variable {g : State → State} (hg : Transparent g)
include hg

theorem reg (s : State) (r : RegIndex) : (g s).reg r = s.reg r := by rw [State.reg, hg.x, State.reg]

theorem sp (s : State) : (g s).sp = s.sp := hg.reg s _

theorem setSp (s : State) (v : Byte) : (g s).setSp v = g (s.setSp v) := hg.setReg s _ v

theorem regIdx (s : State) (a : Byte) : regIdx (g s) a = Machine.regIdx s a := by
  rw [Machine.regIdx, hg.pc, ← Machine.regIdx]

theorem spDown (s : State) : spDown (g s) = Machine.spDown s := by
  rw [Machine.spDown, hg.pc, hg.sp, ← Machine.spDown]

theorem spUp (s : State) (v : Byte) : spUp (g s) v = Machine.spUp s v := by
  rw [Machine.spUp, hg.pc, ← Machine.spUp]

theorem returnAddress (s : State) : returnAddress (g s) = Machine.returnAddress s := by
  rw [Machine.returnAddress, hg.pc, ← Machine.returnAddress]

theorem orRaise {α : Type} (s : State) (c : Except Cause α) (k : α → Result) :
    orRaise (g s) c (fun v => mapNext g (k v)) = mapNext g (Machine.orRaise s c k) := by
  cases c with
  | ok v => rfl
  | error c => exact congrArg Host.Outcome.next (hg.setStatus s _)

theorem advancePc (L : Nat) (s : State) : advancePc L (g s) = mapNext g (Machine.advancePc L s) := by
  rw [Machine.advancePc, hg.pc, Machine.advancePc, ← hg.orRaise]
  exact congrArg _ (funext fun t => congrArg Host.Outcome.next (hg.setPc s t))

theorem aluInstr (a b : Byte) (s : State) {f f' : RegIndex → RegIndex → State} (hf : ∀ r q, f' r q = g (f r q)) :
    aluInstr a b (g s) f' = mapNext g (Machine.aluInstr a b s f) := by
  simp only [Machine.aluInstr, hg.regIdx, hf, hg.advancePc, hg.orRaise]

theorem branchWhen (taken : Bool) (a : Byte) (s : State) :
    branchWhen taken a (g s) = mapNext g (Machine.branchWhen taken a s) := by
  cases taken with
  | true => simp only [Machine.branchWhen, hg.regIdx, hg.reg, hg.setPc, if_true, next_eq_mapNext g, hg.orRaise]
  | false => simp only [Machine.branchWhen, hg.regIdx, hg.advancePc, Bool.false_eq_true, if_false, hg.orRaise]

end Transparent

/-- An instruction neither reads nor carries along what a transparent change changes, the flags of JEQ and JNE and the
flag write of CMP set apart. -/
theorem exec_transparent {g : State → State} (hg : Transparent g) {i : Instr} {s : State}
    (hcmp : ∀ a b, i = .cmp a b → ∀ t v, (g t).setFl v = g (t.setFl v))
    (hjump : ∀ a, i = .jeq a ∨ i = .jne a → (g s).fl.getLsbD 0 = s.fl.getLsbD 0) :
    exec i (g s) = mapNext g (exec i s) := by
  cases i with
  | hlt => exact congrArg Host.Outcome.next (hg.setStatus s _)
  | ldi a imm => simp only [exec, execLdi, hg.regIdx, hg.setReg, hg.advancePc, hg.orRaise]
  | prn a => simp only [exec, execPrn, hg.regIdx, hg.reg, hg.emit, hg.advancePc, hg.orRaise]
  | mul a b | add a b => exact hg.aluInstr a b s fun r q => by rw [hg.reg, hg.reg, hg.setReg]
  | cmp a b => exact hg.aluInstr a b s fun r q => by rw [hg.reg, hg.reg, hcmp a b rfl]
  | push a =>
    simp only [exec, execPush_eq, hg.regIdx, hg.spDown, hg.setSp, hg.reg, hg.mem, hg.setMem, hg.advancePc, hg.orRaise]
  | pop a =>
    simp only [exec, execPop_eq, hg.regIdx, hg.spUp, hg.sp, hg.mem, hg.setReg, hg.setSp, hg.advancePc, hg.orRaise]
  | call a =>
    simp only [exec, execCall_eq, hg.regIdx, hg.returnAddress, hg.spDown, hg.setSp, hg.reg, hg.mem, hg.setMem, hg.setPc,
      next_eq_mapNext g, hg.orRaise]
  | ret => simp only [exec, execRet_eq, hg.spUp, hg.sp, hg.mem, hg.setSp, hg.setPc, next_eq_mapNext g, hg.orRaise]
  | jmp a => exact hg.branchWhen true a s
  | jeq a => rw [exec_jeq, exec_jeq, hjump a (.inl rfl), hg.branchWhen]
  | jne a => rw [exec_jne, exec_jne, hjump a (.inr rfl), hg.branchWhen]

/-! ## The flags (spec R19, R20) -/

theorem transparent_setFl (f : Byte) : Transparent fun s => s.setFl f :=
  ⟨fun _ => rfl, fun _ => rfl, fun _ => rfl, fun _ _ _ => rfl, fun _ _ => rfl, fun _ _ => rfl, fun _ _ => rfl,
    fun _ _ => rfl⟩

/-- An instruction other than CMP that does not see the change of the flags makes the same effect under it. -/
theorem exec_setFl {i : Instr} {s t : State} {f : Byte} (h : exec i s = .next t) (hcmp : ∀ a b, i ≠ .cmp a b)
    (hjump : ∀ a, i = .jeq a ∨ i = .jne a → f.getLsbD 0 = s.fl.getLsbD 0) :
    exec i { s with fl := f } = .next { t with fl := f } := by
  have hexec : exec i (s.setFl f) = mapNext (fun t => t.setFl f) (exec i s) :=
    exec_transparent (transparent_setFl f) (fun a b hi => absurd hi (hcmp a b)) hjump
  rw [h] at hexec
  exact hexec

theorem firstBadRegister_cmp {a b : Byte} (h : 7 < a.toNat ∨ 7 < b.toNat) :
    ∃ v, firstBadRegister (.cmp a b) = some v := by
  rw [← Option.isSome_iff_exists, firstBadRegister, List.find?_isSome]
  obtain h | h := h
  · exact ⟨a, by simp [Instr.regOperands], by simpa using h⟩
  · exact ⟨b, by simp [Instr.regOperands], by simpa using h⟩

theorem exec_branch_frame {i : Instr} {a : Byte} (hi : i = .jeq a ∨ i = .jne a) (s : State) :
    ∃ t, exec i s = .next t ∧ t.mem = s.mem ∧ t.x = s.x ∧ t.fl = s.fl ∧ t.out = s.out := by
  obtain rfl | rfl := hi
  · exact branchWhen_frame a s _
  · exact branchWhen_frame a s _

/-- Settles O33: by the frame CMP alone writes the flags, and `exec_setFl` says who does not read them; CMP overwrites
them or faults first, and a branch changes only `pc` and the status. -/
theorem flagsFlowOnlyFromCmpToBranches : Obligations.FlagsFlowOnlyFromCmpToBranches := by
  unfold Obligations.FlagsFlowOnlyFromCmpToBranches
  refine ⟨fun i s t h hcmp => (exec_writes h).fl hcmp, fun i s t f h hcmp hjeq hjne => ?unread,
    fun a b s f ha hb => ?overwritten, fun a b s t f hbad h => ?cmpFault, fun i s t a f hi hbit h => ?sameBit,
    fun i s t a f hi h => ?anyFlags⟩
  case unread =>
    refine exec_setFl h hcmp fun a hi => ?_
    obtain rfl | rfl := hi
    · exact absurd rfl (hjeq a)
    · exact absurd rfl (hjne a)
  case overwritten =>
    obtain ⟨ra, hra⟩ : ∃ ra : RegIndex, a.toNat = ra.val := ⟨⟨a.toNat, by omega⟩, rfl⟩
    obtain ⟨rb, hrb⟩ : ∃ rb : RegIndex, b.toNat = rb.val := ⟨⟨b.toNat, by omega⟩, rfl⟩
    rw [exec_cmp_valid hra hrb, exec_cmp_valid hra hrb]
    rfl
  case cmpFault =>
    obtain ⟨v, hv⟩ := firstBadRegister_cmp hbad
    rw [exec_of_firstBadRegister hv] at h ⊢
    cases h
    rfl
  case sameBit =>
    refine exec_setFl h (fun b c hcmp => ?_) fun _ _ => hbit
    obtain rfl | rfl := hi <;> cases hcmp
  case anyFlags =>
    obtain ⟨t', ht', hmem, hx, _, hout⟩ := exec_branch_frame hi s
    obtain ⟨w, hw, hwmem, hwx, _, hwout⟩ := exec_branch_frame hi { s with fl := f }
    obtain rfl : t' = t := Host.Outcome.next.inj (ht'.symm.trans h)
    exact ⟨w, hw, hwx.trans hx.symm, hwmem.trans hmem.symm, hwout.trans hout.symm⟩

/-! ## The trace (spec R22) -/

/-- The state with `o` emitted before everything it emitted itself. -/
def State.afterOutput (o : List Byte) (s : State) : State := { s with out := o ++ s.out }

theorem transparent_afterOutput (o : List Byte) : Transparent (State.afterOutput o) where
  mem _ := rfl
  x _ := rfl
  pc _ := rfl
  setReg _ _ _ := rfl
  setMem _ _ := rfl
  setPc _ _ := rfl
  setStatus _ _ := rfl
  emit s v := by simp [State.afterOutput, State.emit]

/-- Whatever was emitted before, an instruction has the effect that it has after nothing. -/
theorem exec_of_exec_silent {i : Instr} {s t : State} (h : exec i { s with out := [] } = .next t) (o : List Byte) :
    exec i { s with out := o } = .next { t with out := o ++ t.out } := by
  have hg := exec_transparent (transparent_afterOutput o) (i := i) (s := { s with out := [] })
    (fun _ _ _ _ _ => rfl) fun _ _ => rfl
  rw [h, State.afterOutput, List.append_nil] at hg
  exact hg

theorem advancePc_out {L : Nat} {u t : State} (h : advancePc L u = .next t) : t.out = u.out := by
  obtain ⟨_, e⟩ | ⟨_, e⟩ := advancePc_cases L u <;> rw [e] at h <;> cases h <;> rfl

theorem out_of_exec_prn {a : Byte} {ra : RegIndex} (ha : a.toNat = ra.val) {s t : State}
    (h : exec (.prn a) s = .next t) : t.out = s.out ++ [s.reg ra] := by
  rw [exec_prn_valid ha] at h
  exact advancePc_out h

theorem out_of_exec_not_prn {i : Instr} {s t : State} (h : exec i s = .next t)
    (hprn : ∀ (a : Byte) (ra : RegIndex), i = .prn a → a.toNat ≠ ra.val) : t.out = s.out := by
  by_cases hi : ∃ a, i = .prn a
  · obtain ⟨a, rfl⟩ := hi
    have hbad : 7 < a.toNat := by
      by_contra hgood
      exact hprn a ⟨a.toNat, by omega⟩ rfl rfl
    rw [exec_of_firstBadRegister (v := a) (by simp [firstBadRegister, Instr.regOperands, hbad])] at h
    cases h
    rfl
  · exact (exec_writes h).out (not_exists.mp hi)

/-- Settles O34: an instruction emits what it emits from an empty trace. -/
theorem outputOnlyGrowsByPrn : Obligations.OutputOnlyGrowsByPrn := by
  unfold Obligations.OutputOnlyGrowsByPrn
  refine ⟨rfl, fun i s t h => ?_⟩
  obtain ⟨w, hw⟩ := (exec_cases i { s with out := [] }).answers_next
  obtain rfl : { w with out := s.out ++ w.out } = t :=
    Host.Outcome.next.inj ((exec_of_exec_silent hw s.out).symm.trans h)
  refine ⟨w.out, rfl, fun a ra hi ha => ?prn, fun hprn => ?silent, exec_of_exec_silent hw⟩
  case prn =>
    subst hi
    exact out_of_exec_prn ha hw
  case silent => exact out_of_exec_not_prn hw hprn

end Sys2Proof.Machine
end

section
/-! Proofs about the reset and the launch, spec R26, R140 and R141. -/

namespace Sys2Proof.Machine

/-- The registers but the stack pointer are zero, for any values of the two parameters (spec R26). -/
theorem reg_resetWith_of_ne (sp fl : Byte) {r : RegIndex} (h : r ≠ 7) : (State.resetWith sp fl).reg r = 0x00 := by
  have hsp : State.resetWith sp fl = (State.resetWith 0x00 fl).setReg 7 sp := rfl
  rw [hsp, State.reg_setReg_ne _ h]
  exact Vector.getElem_replicate (n := 8) (a := (0x00 : Byte)) r.isLt

/-- Settles O42: the reset state is `State.resetWith` at the two default values. -/
theorem resetValues : Obligations.ResetValues :=
  ⟨fun _ => rfl, fun _ hr => reg_resetWith_of_ne _ _ hr, rfl, rfl, rfl, rfl, rfl⟩

/-- Settles O43: what fits is the reset state of the two parameters with the image loaded into an empty memory. -/
theorem launchPlacesImage : Obligations.LaunchPlacesImage := by
  unfold Obligations.LaunchPlacesImage
  intro sp fl image
  refine ⟨fun hlong => if_pos hlong, fun hfits => ?_⟩
  exact ⟨(State.resetWith sp fl).setMem (Memory.load [] 0 image), if_neg (Nat.not_lt.mpr hfits),
    Memory.wf_load 0 image rfl, Memory.read_load_image image, fun r hr => reg_resetWith_of_ne sp fl hr,
    rfl, rfl, rfl, rfl, rfl⟩

end Sys2Proof.Machine
end

section
/-! Proofs about instructions together, spec R73, R80 to R84, R92, R93 and vectors S1 to S5: what one leaves is what the
next one reads. -/

namespace Sys2Proof.Machine

theorem toNat_byte_ofNat {n : Nat} (h : n ≤ 255) : (BitVec.ofNat 8 n).toNat = n := by
  rw [BitVec.toNat_ofNat, Nat.mod_eq_of_lt (by omega)]

/-! ## Stack round trips (spec R81 to R84) -/

/-- A PUSH of a register other than SP that completes, seen through the accessors. -/
theorem exec_push_completes {a : Byte} {ra : RegIndex} (ha : a.toNat = ra.val) (hra : ra ≠ 7) {s : State} {d : Byte}
    (hsp : s.sp.toNat = d.toNat + 1) (hpc : s.pc.toNat + 2 ≤ 255) :
    ∃ u, exec (.push a) s = .next u ∧ u.status = s.status ∧ u.sp = d ∧ u.mem.read d = s.reg ra ∧
      (∀ r, r ≠ 7 → u.reg r = s.reg r) ∧ u.pc = BitVec.ofNat 8 (s.pc.toNat + 2) := by
  have hexec := exec_push_valid ha hsp
  rw [if_neg hra, (advancePc_spec 2 { s.setReg 7 d with mem := s.mem.write d (s.reg ra) }).1 hpc] at hexec
  exact ⟨_, hexec, rfl, s.reg_setReg_same 7 d, Memory.read_write_same s.mem d (s.reg ra),
    fun r hr => s.reg_setReg_ne hr d, rfl⟩

/-- A POP into a register other than SP that completes, seen through the accessors. -/
theorem exec_pop_completes {b : Byte} {rb : RegIndex} (hb : b.toNat = rb.val) (hrb : rb ≠ 7) {s : State} {d : Byte}
    (hsp : d.toNat = s.sp.toNat + 1) (hpc : s.pc.toNat + 2 ≤ 255) :
    ∃ u, exec (.pop b) s = .next u ∧ u.mem = s.mem ∧ u.sp = d ∧ u.reg rb = s.mem.read s.sp ∧
      (∀ r, r ≠ rb → r ≠ 7 → u.reg r = s.reg r) ∧ u.pc.toNat = s.pc.toNat + 2 := by
  have hbase : popBase s rb = s.sp := if_neg hrb
  have hexec := exec_pop_valid hb (s := s) (t := d) (by rw [hbase, hsp])
  rw [advancePc_ok (by exact hpc)] at hexec
  refine ⟨_, hexec, rfl, State.reg_setReg_same _ 7 d, ?popped, fun r hr hr7 => ?others, toNat_byte_ofNat hpc⟩
  case popped => rw [State.reg_setPc, State.reg_setReg_ne _ hrb, State.reg_setReg_same]
  case others => rw [State.reg_setPc, State.reg_setReg_ne _ hr7, State.reg_setReg_ne _ hr]

/-- Settles O45: POP finds SP where PUSH left it, and there the pushed value. -/
theorem pushThenPopRoundTrips : Obligations.PushThenPopRoundTrips := by
  unfold Obligations.PushThenPopRoundTrips
  intro a b ra rb s d ha hb hra hrb hsp hpc
  obtain ⟨u, hpush, _, hspu, hcell, hregu, hpcu⟩ := exec_push_completes ha hra hsp (by omega)
  have hpcu' : u.pc.toNat = s.pc.toNat + 2 := by rw [hpcu, toNat_byte_ofNat (by omega)]
  obtain ⟨t, hpop, hmem, hspt, hpopped, hregt, hpct⟩ :=
    exec_pop_completes hb hrb (s := u) (d := s.sp) (by rw [hspu, hsp]) (by omega)
  refine ⟨u, t, hpush, hpop, ?value, hspt, by rw [hmem, hcell], fun r hr => ?others, by omega⟩
  case value => rw [hpopped, hspu, hcell]
  case others =>
    by_cases hr7 : r = 7
    · rw [hr7]; exact hspt
    · rw [hregt r hr hr7, hregu r hr7]

/-- Settles O46: RET reads the return address from the cell where CALL wrote it, and undoes CALL's step of SP. -/
theorem retReturnsAfterCall : Obligations.RetReturnsAfterCall := by
  unfold Obligations.RetReturnsAfterCall
  intro a ra s ha hpc hsp
  obtain ⟨d, hd, _⟩ | ⟨hzero, _⟩ := spDown_cases s
  · refine ⟨_, exec_call_valid ha hpc hd, fun w hwsp hwcell => ?_⟩
    have hspd : w.sp = d := hwsp.trans (s.reg_setReg_same 7 d)
    refine ⟨_, exec_ret_valid (s := w) (t := s.sp) (by rw [hspd, hd]), ?pc, w.reg_setReg_same 7 s.sp⟩
    case pc =>
      have hcell : w.mem.read w.sp = BitVec.ofNat 8 (s.pc.toNat + 2) := by
        rw [hwsp, hwcell, ← hwsp, hspd]
        exact Memory.read_write_same s.mem d _
      show (w.mem.read w.sp).toNat = _
      rw [hcell, toNat_byte_ofNat hpc]
  · exact absurd hzero hsp

/-! ## Branches after a comparison (spec R75, R92, R93) -/

/-- Of the flags that CMP writes bit 0 says whether the values are equal (spec R75). -/
theorem compareFlags_bit_zero (u v : Byte) : (compareFlags u v).getLsbD 0 = decide (u = v) := by
  obtain ⟨horder, e⟩ | ⟨horder, e⟩ | ⟨horder, e⟩ := compareFlags_cases u v <;> rw [e]
  · simp [BitVec.eq_of_toNat_eq horder]
  · have hne : u ≠ v := fun h => by rw [h] at horder; exact Nat.lt_irrefl _ horder
    simp [hne]
  · have hne : u ≠ v := fun h => by rw [h] at horder; exact Nat.lt_irrefl _ horder
    simp [hne]

/-- Settles O47: the branches read the bit that says whether the compared values are equal. -/
theorem branchesFollowComparison : Obligations.BranchesFollowComparison := by
  unfold Obligations.BranchesFollowComparison
  intro a b c ra rb rc s ha hb hc hpc
  have hcmp : ∃ u, exec (.cmp a b) s = .next u ∧ u.pc.toNat = s.pc.toNat + 3 ∧
      u.fl.getLsbD 0 = decide (s.reg ra = s.reg rb) ∧ u.reg rc = s.reg rc := by
    have hexec := exec_cmp_valid ha hb s
    rw [advancePc_ok (by rw [State.setFl_pc]; omega)] at hexec
    exact ⟨_, hexec, toNat_byte_ofNat (by rw [State.setFl_pc]; omega), compareFlags_bit_zero _ _, rfl⟩
  obtain ⟨u, hu, hpcu, hbit, hreg⟩ := hcmp
  obtain ⟨hjeqTaken, hjeqNext, _⟩ := jeqJumpsOnEqual c rc u hc
  obtain ⟨hjneTaken, hjneNext, _⟩ := jneJumpsOnNotEqual c rc u hc
  have hnext : (BitVec.ofNat 8 (u.pc.toNat + 2)).toNat = s.pc.toNat + 5 := by
    rw [hpcu, toNat_byte_ofNat (by omega)]
  by_cases heq : s.reg ra = s.reg rb
  · rw [decide_eq_true heq] at hbit
    exact ⟨u, _, _, hu, hjeqTaken hbit, hjneNext hbit (by omega), fun _ => ⟨hreg, hnext⟩, fun hne => absurd heq hne⟩
  · rw [decide_eq_false heq] at hbit
    exact ⟨u, _, _, hu, hjeqNext hbit (by omega), hjneTaken hbit, fun h => absurd h heq, fun _ => ⟨hnext, hreg⟩⟩

/-! ## Two steps from a launch (vector S1) -/

/-- The code window at address 3 of the image of vector S1. -/
theorem decode_codeBytes_prn {a v : Byte} {u : State} (hpc : u.pc = 3)
    (hmem : u.mem = Memory.load [] 0 (encode (.ldi a v) ++ encode (.prn a))) :
    decode (codeBytes u) = .ok (.prn a) := by
  have hcode : codeBytes u = encode (.prn a) ++ [0x00] := by
    simp [codeBytes, bytesFrom, hpc, hmem, Memory.read_load_image, Config.memSize, encode, Instr.operandBytes]
  rw [hcode]
  exact decodeOfEncode (.prn a) [0x00]

/-- The first step of vector S1, seen through the accessors. -/
theorem step_launch_ldi {a v : Byte} {ra : RegIndex} {s : State} {rest : List Byte} (ha : a.toNat = ra.val)
    (h : State.launch (encode (.ldi a v) ++ rest) = .ok s) :
    ∃ u, step s = .next u ∧ u.mem = Memory.load [] 0 (encode (.ldi a v) ++ rest) ∧ u.pc = 3 ∧ u.reg ra = v ∧
      u.out = [] ∧ u.status = .running := by
  obtain ⟨hpc, _, hfirst, _⟩ := firstInstructionAtAddressZero _ _ h
  have hstep : step s = exec (.ldi a v) s := by
    refine hfirst _ ?_
    rw [List.append_assoc]
    exact decodeOfEncode (.ldi a v) _
  obtain ⟨hldi, _⟩ := ldiLoadsImmediate a v ra s ha
  rw [hpc] at hldi
  refine ⟨_, hstep.trans (hldi (by decide)), ?_⟩
  obtain rfl := eq_of_launch h
  exact ⟨rfl, rfl, State.reg_setReg_same _ ra v, rfl, rfl⟩

/-- Settles O48: the first step executes the LDI, and the PRN stands at the address it advances to. -/
theorem ldiThenPrnOutputsValue : Obligations.LdiThenPrnOutputsValue := by
  unfold Obligations.LdiThenPrnOutputsValue
  intro a v ra s ha hlaunch
  obtain ⟨u, hldi, hmem, hpc, hreg, hout, hrun⟩ := step_launch_ldi ha hlaunch
  obtain ⟨hprn, _⟩ := prnAppendsRegister a ra u ha
  rw [← step_of_decode hrun (decode_codeBytes_prn hpc hmem), hpc, hreg, hout] at hprn
  rw [runFor_succ_of_next hldi, runFor_succ_of_next (hprn (by decide)), runFor]
  exact ⟨rfl, hreg, rfl, hrun⟩

/-! ## Fetch coherence (spec R37) -/

/-- Settles O49: PUSH writes the cell that `pc` then points to, and what the next step does there is fixed by that
byte. -/
theorem pushedByteIsFetchedNext : Obligations.PushedByteIsFetchedNext := by
  unfold Obligations.PushedByteIsFetchedNext
  intro s a ra hrun hd ha hra hpc hsp
  have hcell : s.sp.toNat = (BitVec.ofNat 8 (s.pc.toNat + 2)).toNat + 1 := by rw [toNat_byte_ofNat hpc, hsp]
  obtain ⟨u, hpush, hstatus, _, hread, _, hpcu⟩ := exec_push_completes ha hra hcell hpc
  rw [← hpcu] at hread
  have hrunu : u.status = .running := hstatus.trans hrun
  refine ⟨u, (step_of_decode hrun hd).trans hpush, hrunu, ?fetched, fun hhlt => ?halts⟩
  case fetched =>
    obtain ⟨bs, hbs⟩ := codeBytes_eq_cons u
    rw [hbs, hread, List.getElem?_cons_zero]
  case halts =>
    have hcode : decode (codeBytes u) = .ok .hlt := (decode_codeBytes_hlt_iff u).mpr (hread.trans hhlt)
    rw [step_of_decode hrunu hcode]
    rfl

end Sys2Proof.Machine
end
